-- ==== Sys2Proof/Word.lean ====
section
/-! DEFINITION. The words of the block (00_scope.md R8): everything is unsigned, bit 0 is the least
significant bit. -/

namespace Sys2Proof

/-- A byte, 8 bits unsigned (R8). -/
abbrev Byte := BitVec 8

/-- A 16-bit unsigned value: the width of the counters and of the declared length (R20, R29, R72). -/
abbrev Half := BitVec 16

/-- A 64-bit radio address of a message (R153, R160). -/
abbrev Addr64 := BitVec 64

end Sys2Proof
end

