-- ==== Sys2Proof/Config.lean ====
section
/-! DEFINITION. What one implementation fixes, and the free values (93_implementation_defined.md). -/

namespace Sys2Proof

/-- FREE VALUE (U1, R25, R210): what the byte of `rx.buf` at an index holds from power-up until the
first write there. No body, so nothing can be proved of it. Log 3: safe. -/
opaque Config.scratchByte : Nat → Byte

/-- FREE VALUE (R210, U6, D14): what a byte of `tx.payload` holds where nothing definite has been
written: first argument the count `tx.draw` (0 from power-up, one more at every `BufferTooSmall`),
second the index. No body. Log 3 and log 5: safe. -/
opaque Config.payloadByte : Nat → Nat → Byte

/-- DESIGN CHOICE (log 2, unsafe): the `RX_CAP` that `State.reset` has. The spec leaves the parameter
open over 0 to 65535 (R5, D4); statements are made for every value of the field. -/
def Config.rxCapAtReset : Half := 0xFFFF

/-- DESIGN CHOICE (log 2, unsafe): the `TX_CAP` that `State.reset` has (R5, D4). -/
def Config.txCapAtReset : Half := 0xFFFF

end Sys2Proof
end

