-- ==== Sys2Proof/Syntax.lean ====
section
/-! DEFINITION. The operations as terms: one constructor of `Instr` per row of opcode_table.json, and the
selectors of 30_encoding.md R86 that encode them. -/

namespace Sys2Proof

/-- The fields of an `AtCommand` (R152). -/
structure AtCommand where
  frameId : Byte
  name0 : Byte
  name1 : Byte
  parameter : Option Byte
  deriving DecidableEq, Repr

/-- The fields of a `TransmitRequestCommand` (R153, R154). -/
structure TransmitRequest where
  frameId : Byte
  destination : Addr64
  networkAddress : Half
  radius : Byte
  disableRetries : Bool
  enableEncryption : Bool
  useExtendedTimeout : Bool
  payload : List Byte
  deriving DecidableEq, Repr

/-- One operation of the block or of a collaborator: one constructor per row of opcode_table.json. -/
inductive Instr where
  /-- RX_WAIT_DISCARD (R101): the byte is not the delimiter. -/
  | rxWaitDiscard (b : Byte)
  /-- RX_WAIT_SYNC (R102): the byte is the delimiter. -/
  | rxWaitSync
  /-- RX_LEN_MSB (R103): high byte of the declared length. -/
  | rxLenMsb (b : Byte)
  /-- RX_LEN_LSB (R104): low byte of the declared length. -/
  | rxLenLsb (b : Byte)
  /-- RX_DATA (R105): a payload byte. -/
  | rxData (b : Byte)
  /-- RX_CKSUM (R106): the checksum byte. -/
  | rxCksum (b : Byte)
  /-- TX_IDLE (R137). -/
  | txIdle
  /-- TX_DELIM (R132). -/
  | txDelim
  /-- TX_LEN_MSB (R133). -/
  | txLenMsb
  /-- TX_LEN_LSB (R134). -/
  | txLenLsb
  /-- TX_DATA (R135). -/
  | txData
  /-- TX_CKSUM (R136). -/
  | txCksum
  /-- TX_START (R130): `serialize(L)`. -/
  | txStart (len : Half)
  /-- RESET (R197, R210). -/
  | reset
  /-- AT_COMMAND (R152): `build` of the command into the payload buffer (R156). -/
  | atCommand (m : AtCommand)
  /-- TRANSMIT_REQUEST (R153): `build` of the command into the payload buffer (R156). -/
  | transmitRequest (m : TransmitRequest)
  /-- AT_COMMAND_RESPONSE (R158): `parse` of a payload. -/
  | atCommandResponse (buffer : List Byte)
  /-- ZIGBEE_RECEIVE_PACKET (R160): `parse` of a payload. -/
  | zigbeeReceivePacket (buffer : List Byte)
  deriving DecidableEq, Repr

/-- The four selector formats of R86. -/
inductive Format where
  | rx | tx | call | payloadId
  deriving DecidableEq, Repr

/-- What selects an operation and carries its operands (R86): the selector word of its format, with the
operands that the format leaves to the call. -/
inductive Selector where
  /-- `{rx.state[2:0], b[7:0]}` at a call of `push(b)`. -/
  | rx (w : BitVec 11)
  /-- `tx.phase[2:0]` at a call of `next()`. -/
  | tx (w : BitVec 3)
  /-- the call `serialize(L)`: no selector bits. -/
  | serialize (len : Half)
  /-- the call `reset`: no selector bits. -/
  | reset
  /-- the bytes of a payload; the first is the selector word. -/
  | payload (bytes : List Byte)
  deriving DecidableEq, Repr

end Sys2Proof
end

