-- ==== Sys2Proof/WellFormed.lean ====
section
/-! DEFINITION. When a term of `Instr` is one the encoding tables can express. -/

namespace Sys2Proof

/-- A payload that leads with the identifier (R83). -/
def payloadLedBy (id : Byte) (buffer : List Byte) : Bool := decide (buffer.head? = some id)

/-- The term is an operation some selector of R86 selects. Checks: a discarded byte is not the delimiter
(R101); a response payload leads with the identifier of its row (R83). Every other operand is in range
by its type: a command's data may have any length, and one too long for its buffer is the
`BufferTooSmall` of `build`, not an encoding fault (R151, R153). -/
def Instr.wf : Instr → Bool
  | .rxWaitDiscard b => decide (b ≠ 0x7E)
  | .rxWaitSync => true
  | .rxLenMsb _ => true
  | .rxLenLsb _ => true
  | .rxData _ => true
  | .rxCksum _ => true
  | .txIdle => true
  | .txDelim => true
  | .txLenMsb => true
  | .txLenLsb => true
  | .txData => true
  | .txCksum => true
  | .txStart _ => true
  | .reset => true
  | .atCommand _ => true
  | .transmitRequest _ => true
  | .atCommandResponse buffer => payloadLedBy 0x88 buffer
  | .zigbeeReceivePacket buffer => payloadLedBy 0x90 buffer

end Sys2Proof
end

