-- ==== Sys2Proof/Decode.lean ====
section
/-! DEFINITION. Selecting an operation (30_encoding.md R76, R77, R83, R86): the decoder, total on every
selector and rejecting by name, then the encoder written from the same tables. -/

namespace Sys2Proof

/-- The delimiter byte that opens every frame (R71). -/
def delimiter : Byte := 0x7E

/-- Identifiers of the four message shapes (R83). -/
def idAtCommand : Byte := 0x08
def idTransmitRequest : Byte := 0x10
def idAtCommandResponse : Byte := 0x88
def idZigbeeReceivePacket : Byte := 0x90

/-- `v[15:8]` (R51, R79). -/
def hiByte (v : Half) : Byte := v.extractLsb' 8 8

/-- `v[7:0]` (R51, R79). -/
def loByte (v : Half) : Byte := v.extractLsb' 0 8

/-- A big-endian 16-bit field from its two bytes (R51). -/
def joinHalf (hi lo : Byte) : Half := hi ++ lo

/-- `a[63 - 8i : 56 - 8i]`: byte `i` of a big-endian 64-bit field (R153). -/
def addrByte (a : Addr64) (i : Nat) : Byte := a.extractLsb' (56 - 8 * i) 8

/-- A big-endian 64-bit field from its eight bytes, most significant first (R160). -/
def joinAddr (b0 b1 b2 b3 b4 b5 b6 b7 : Byte) : Addr64 :=
  b0 ++ b1 ++ b2 ++ b3 ++ b4 ++ b5 ++ b6 ++ b7

/-- The options byte of a transmit request: bit 0, bit 5 and bit 6; every other bit 0 (R154). -/
def optionsByte (disableRetries enableEncryption useExtendedTimeout : Bool) : Byte :=
  (if disableRetries then 0x01 else 0) ||| (if enableEncryption then 0x20 else 0)
    ||| (if useExtendedTimeout then 0x40 else 0)

/-- Layout of an AT command: 4 bytes, 5 with a parameter (R152). -/
def AtCommand.layout (m : AtCommand) : List Byte :=
  [idAtCommand, m.frameId, m.name0, m.name1] ++ m.parameter.toList

/-- Layout of a transmit request: 14 bytes, then the payload (R153). -/
def TransmitRequest.layout (m : TransmitRequest) : List Byte :=
  [idTransmitRequest, m.frameId,
    addrByte m.destination 0, addrByte m.destination 1, addrByte m.destination 2,
    addrByte m.destination 3, addrByte m.destination 4, addrByte m.destination 5,
    addrByte m.destination 6, addrByte m.destination 7,
    hiByte m.networkAddress, loByte m.networkAddress, m.radius,
    optionsByte m.disableRetries m.enableEncryption m.useExtendedTimeout] ++ m.payload

/-- A transmit request whose caller sets only the two fields without a default (R155). -/
def TransmitRequest.withDefaults (frameId : Byte) (payload : List Byte) : TransmitRequest :=
  { frameId := frameId, destination := 0x000000000000FFFF, networkAddress := 0xFFFE, radius := 0,
    disableRetries := false, enableEncryption := false, useExtendedTimeout := false, payload := payload }

/-- Why a selector selects no operation. -/
inductive DecodeError where
  /-- `rx.state` code 5, 6 or 7 (R117, U3). -/
  | unusedRxTag
  /-- `tx.phase` code 6 or 7 (R30, U3). -/
  | unusedTxPhase
  /-- an empty payload has no identifier (R73, R163). -/
  | emptyPayload
  /-- an identifier of no row (R83, U12). -/
  | unknownIdentifier
  /-- AT command bytes that are not 4 or 5 long (R152; log 14). -/
  | badAtCommandLength
  /-- transmit request bytes shorter than the fixed part (R153; log 14). -/
  | shortTransmitRequest
  deriving DecidableEq, Repr

/-- Format RX: tag in bits 10 to 8, byte in bits 7 to 0; RX_WAIT_SYNC takes precedence (R76, R86). -/
def decodeRx (w : BitVec 11) : Except DecodeError Instr :=
  let b : Byte := w.extractLsb' 0 8
  match (w.extractLsb' 8 3).toNat with
  | 0 => if b = delimiter then .ok .rxWaitSync else .ok (.rxWaitDiscard b)
  | 1 => .ok (.rxLenMsb b)
  | 2 => .ok (.rxLenLsb b)
  | 3 => .ok (.rxData b)
  | 4 => .ok (.rxCksum b)
  | _ => .error .unusedRxTag

/-- Format TX (R77, R86). -/
def decodeTx (w : BitVec 3) : Except DecodeError Instr :=
  match w.toNat with
  | 0 => .ok .txIdle
  | 1 => .ok .txDelim
  | 2 => .ok .txLenMsb
  | 3 => .ok .txLenLsb
  | 4 => .ok .txData
  | 5 => .ok .txCksum
  | _ => .error .unusedTxPhase

/-- The fields of an AT command from its layout (R152). -/
def decodeAtCommand : List Byte → Except DecodeError Instr
  | [_, frameId, name0, name1] => .ok (.atCommand ⟨frameId, name0, name1, none⟩)
  | [_, frameId, name0, name1, parameter] => .ok (.atCommand ⟨frameId, name0, name1, some parameter⟩)
  | _ => .error .badAtCommandLength

/-- The fields of a transmit request from its layout (R153, R154). The bits of the options byte that no field
sets are ignored (U12). -/
def decodeTransmitRequest : List Byte → Except DecodeError Instr
  | _ :: frameId :: a0 :: a1 :: a2 :: a3 :: a4 :: a5 :: a6 :: a7 :: n0 :: n1 :: radius :: options :: payload =>
    .ok (.transmitRequest ⟨frameId, joinAddr a0 a1 a2 a3 a4 a5 a6 a7, joinHalf n0 n1, radius,
      options.getLsbD 0, options.getLsbD 5, options.getLsbD 6, payload⟩)
  | _ => .error .shortTransmitRequest

/-- Format PAYLOAD_ID: the first byte selects the message shape (R83, R86). -/
def decodePayload (bytes : List Byte) : Except DecodeError Instr :=
  match bytes with
  | [] => .error .emptyPayload
  | id :: _ =>
    if id = idAtCommand then decodeAtCommand bytes
    else if id = idTransmitRequest then decodeTransmitRequest bytes
    else if id = idAtCommandResponse then .ok (.atCommandResponse bytes)
    else if id = idZigbeeReceivePacket then .ok (.zigbeeReceivePacket bytes)
    else .error .unknownIdentifier

/-- The decoder, total on every selector. -/
def decode : Selector → Except DecodeError Instr
  | .rx w => decodeRx w
  | .tx w => decodeTx w
  | .serialize len => .ok (.txStart len)
  | .reset => .ok .reset
  | .payload bytes => decodePayload bytes

/-- The selector word of format RX from a tag code and a byte (R86). -/
def rxWord (tag : BitVec 3) (b : Byte) : BitVec 11 := tag ++ b

/-- The encoder: the selector of an operation, from the tables of R76, R77, R83 and R86. -/
def encode : Instr → Selector
  | .rxWaitDiscard b => .rx (rxWord 0 b)
  | .rxWaitSync => .rx (rxWord 0 delimiter)
  | .rxLenMsb b => .rx (rxWord 1 b)
  | .rxLenLsb b => .rx (rxWord 2 b)
  | .rxData b => .rx (rxWord 3 b)
  | .rxCksum b => .rx (rxWord 4 b)
  | .txIdle => .tx 0
  | .txDelim => .tx 1
  | .txLenMsb => .tx 2
  | .txLenLsb => .tx 3
  | .txData => .tx 4
  | .txCksum => .tx 5
  | .txStart len => .serialize len
  | .reset => .reset
  | .atCommand m => .payload m.layout
  | .transmitRequest m => .payload m.layout
  | .atCommandResponse buffer => .payload buffer
  | .zigbeeReceivePacket buffer => .payload buffer

/-- The selector with the bits cleared that the decoder ignores: those of a transmit request's options byte that
no field sets (R154, U12). -/
def Selector.canonical : Selector → Selector
  | .payload bytes =>
    if bytes.head? = some idTransmitRequest then .payload (bytes.modify 13 (· &&& 0x61)) else .payload bytes
  | sel => sel

/-- The format of a selector (R86). -/
def Selector.format : Selector → Format
  | .rx _ => .rx
  | .tx _ => .tx
  | .serialize _ => .call
  | .reset => .call
  | .payload _ => .payloadId

/-- The selector word as a number; a CALL has no bits, and so has an empty payload (R86). -/
def Selector.word : Selector → Nat
  | .rx w => w.toNat
  | .tx w => w.toNat
  | .serialize _ => 0
  | .reset => 0
  | .payload [] => 0
  | .payload (id :: _) => id.toNat

/-- The `format`, `match` and `mask` of an operation's row in opcode_table.json. -/
def Instr.row : Instr → Format × Nat × Nat
  | .rxWaitDiscard _ => (.rx, 0x000, 0x700)
  | .rxWaitSync => (.rx, 0x07E, 0x7FF)
  | .rxLenMsb _ => (.rx, 0x100, 0x700)
  | .rxLenLsb _ => (.rx, 0x200, 0x700)
  | .rxData _ => (.rx, 0x300, 0x700)
  | .rxCksum _ => (.rx, 0x400, 0x700)
  | .txIdle => (.tx, 0x0, 0x7)
  | .txDelim => (.tx, 0x1, 0x7)
  | .txLenMsb => (.tx, 0x2, 0x7)
  | .txLenLsb => (.tx, 0x3, 0x7)
  | .txData => (.tx, 0x4, 0x7)
  | .txCksum => (.tx, 0x5, 0x7)
  | .txStart _ => (.call, 0x0, 0x0)
  | .reset => (.call, 0x0, 0x0)
  | .atCommand _ => (.payloadId, 0x08, 0xFF)
  | .transmitRequest _ => (.payloadId, 0x10, 0xFF)
  | .atCommandResponse _ => (.payloadId, 0x88, 0xFF)
  | .zigbeeReceivePacket _ => (.payloadId, 0x90, 0xFF)

/-- The shortest message of the shape an identifier selects, every byte after the identifier zero:
4 bytes (R152), 14 (R153), 5 (R158), 12 (R160). -/
def zeroMessage (id : Byte) : List Byte :=
  id :: List.replicate
    (if id = idAtCommand then 3 else if id = idTransmitRequest then 13
      else if id = idAtCommandResponse then 4 else if id = idZigbeeReceivePacket then 11 else 0) 0

/-- The selector that a word of the opcode table stands for. The table's formats have different widths: RX
has 11 bits (two whole bytes), TX has 3 and PAYLOAD_ID has 8 (one byte each; their words do not
overlap, since a phase code is below 8 and every identifier is not), CALL has none (log 17). -/
def tableSelector (nbits w : Nat) : Option Selector :=
  if nbits = 16 ∨ nbits = 11 then
    if w < 2048 then some (.rx (BitVec.ofNat 11 w)) else none
  else if nbits = 8 ∨ nbits = 3 then
    if w < 8 then some (.tx (BitVec.ofNat 3 w))
    else if w < 256 then some (.payload (zeroMessage (BitVec.ofNat 8 w)))
    else none
  else none

/-- The decoder on a word of the opcode table. -/
def decodeTableWord (nbits w : Nat) : Option Instr :=
  match tableSelector nbits w with
  | none => none
  | some sel =>
    match decode sel with
    | .ok i => some i
    | .error _ => none

end Sys2Proof
end

