-- ==== Sys2Proof/Machine/State.lean ====
section
/-! DEFINITION. The state of the machine as plain data (10_state.md), the reasons a step can stop, and the
state after reset. -/

namespace Sys2Proof.Machine

/-- `rx.state`: the parse-state tag (R21). -/
inductive RxState where
  | waitingForDelimiter | receivingLengthMsb | receivingLengthLsb | receivingData | receivingChecksum
  deriving DecidableEq, Repr

/-- `tx.phase`: the phase tag (R30). -/
inductive TxPhase where
  | txIdle | txDelimiter | txLengthMsb | txLengthLsb | txData | txChecksum
  deriving DecidableEq, Repr

/-- The `status` a `push` returns (R100, R181). -/
inductive RxStatus where
  | none | frameAccepted | checksumRejected | capacityRejected
  deriving DecidableEq, Repr

/-- A buffer: the bytes written so far, addresses strictly rising (`Memory.wf`). An address not listed has
no byte of its own: nothing definite has been written there, and `Rx.read` and `Tx.read` say what a
read of it gives (log 3, log 4). -/
abbrev Memory := List Host.Cell

/-- The receiver (R20), with its parameter `RX_CAP` (R5). -/
structure Rx where
  state : RxState
  cursor : Half
  remaining : Half
  checksum : Byte
  buf : Memory
  cap : Half
  deriving DecidableEq, Repr

/-- The serializer (R29), with its parameter `TX_CAP` (R5). `draw` is the model's own count of how many times
the whole payload buffer has become unspecified (U6; log 5). -/
structure Tx where
  phase : TxPhase
  index : Half
  sum : Byte
  len : Half
  payload : Memory
  cap : Half
  draw : Nat
  deriving DecidableEq, Repr

/-- `status` of an AT command response (R159). -/
inductive AtStatus where
  | ok | error | invalidCommand | invalidParameter | txFailure
  deriving DecidableEq, Repr

/-- The fields `AtCommandResponse.parse` returns (R158). -/
structure AtResponse where
  frameId : Byte
  name0 : Byte
  name1 : Byte
  status : AtStatus
  data : Option Byte
  deriving DecidableEq, Repr

/-- The fields `ZigbeeReceivePacket.parse` returns (R160). -/
structure ZigbeePacket where
  sourceAddress : Addr64
  networkAddress : Half
  acknowledged : Bool
  broadcast : Bool
  encrypted : Bool
  fromEndDevice : Bool
  payload : List Byte
  deriving DecidableEq, Repr

/-- `ParseError` (R157, R186). -/
inductive ParseError where
  | idMismatch | sizeOutOfRange | invalidEnumValue
  deriving DecidableEq, Repr

/-- What a collaborator's operation returns (42_payload_formats.md). -/
inductive CallResult where
  /-- `build` succeeded: the Frame is `tx.payload[0 .. len)` (R156). -/
  | built (len : Half)
  /-- `Err(BufferTooSmall)` (R151, R185). -/
  | bufferTooSmall
  /-- `parse` of an AT command response succeeded (R158). -/
  | atResponse (r : AtResponse)
  /-- `parse` of a receive packet succeeded (R160). -/
  | zigbeePacket (p : ZigbeePacket)
  /-- `parse` failed (R186). -/
  | parseError (e : ParseError)
  /-- no variant responds: the payload is ignored (R163). -/
  | ignored
  deriving DecidableEq, Repr

/-- The results of the last step (R41, R100, R131): results of a step, which the block does not store (R40);
the model keeps those of the last step so that a statement can name them (log 6). -/
structure Outputs where
  rxStatus : RxStatus
  rxFrameLen : Half
  rdData : Option Byte
  txByte : Option Byte
  result : Option CallResult
  deriving DecidableEq, Repr

/-- The strobes of one step with their operands (R41, R188): `reset`, `rx_push` with `rx_byte`, `tx_start`
with `tx_len_in`, `tx_next`. -/
structure Strobes where
  reset : Bool
  push : Option Byte
  start : Option Half
  next : Bool
  deriving DecidableEq, Repr

/-- The two Response variants (R157). -/
inductive ResponseKind where
  | atCommandResponse | zigbeeReceivePacket
  deriving DecidableEq, Repr

/-- One thing the outside does in one step (R228). -/
inductive Action where
  /-- the block's own operations, by strobes. -/
  | strobe (p : Strobes)
  /-- the frame consumer reads `rx.buf[a]` (R54). -/
  | readBuf (a : Half)
  /-- the payload owner writes `tx.payload[a]` (R34, R55). -/
  | writePayload (a : Half) (v : Byte)
  /-- a collaborator's operation on the bytes of a message, selected by the first (R83, R86). Bytes that are no
  message of the four shapes are ignored (R163, U12; log 14). -/
  | message (bytes : List Byte)
  /-- the consumer takes `rx.buf[0 .. len)`, probes it and parses it (R163, R165). -/
  | receive (len : Half)
  /-- the consumer parses `rx.buf[0 .. len)` as one variant, without the probe (R157, R162). -/
  | parseAs (kind : ResponseKind) (len : Half)
  deriving DecidableEq, Repr

/-- The machine: the two units, the results of the last step, and what the outside does next (log 1). -/
structure State where
  rx : Rx
  tx : Tx
  out : Outputs
  input : List Action
  deriving DecidableEq, Repr

/-- Why the machine stops with a fault: an access the spec says never happens, in a state that no run from
reset reaches (R58; log 8). -/
inductive Fault where
  /-- RX_DATA with `rx.cursor` at or past `RX_CAP`: the precondition of `MemWrite` fails (R53). Raised by
  `execRxData` alone. Safe. -/
  | rxBufOutOfRange
  /-- TX_DATA with `tx.index` at or past `TX_CAP`: there is no such byte (R50, R58). Raised by `execTxData`
  alone. Safe. -/
  | txPayloadOutOfRange
  deriving DecidableEq, Repr

/-- Why the machine gives a call no meaning. -/
inductive Refusal where
  /-- an instruction without a meaning: only in the arms of `exec`. Safe. -/
  | notModelled (mnemonic : String)
  /-- a tag code that names no state or phase: `push` and `next` have no meaning there (R117, U3). Raised by
  `runSelectors`, which no step calls with such a code: the tags of `State` have no value for one. Safe. -/
  | unusedTag (e : DecodeError)
  /-- `serialize(L)` with `L > TX_CAP` has no defined behaviour (R140, U5). Raised by `execTxStart`. Safe. -/
  | lengthExceedsTxCap
  /-- a consumer read at an index at or past `RX_CAP` has no meaning (R54, U4). Raised by `consumerRead`. Safe. -/
  | readOutsideBuf
  /-- an owner write at an index at or past `TX_CAP`: there is no such byte (R50; log 11). Raised by `ownerWrite`.
  Safe. -/
  | writeOutsidePayload
  /-- a write to `tx.payload[0 .. tx.len)` while `tx.phase` is not `TxIdle`, outside the contract (R215, U7). Raised
  by `ownerWrite` and by `State.build`. Safe. -/
  | payloadInUse
  /-- the consumer takes more bytes than the buffer has (U4). Raised by `consumerTake`. Safe. -/
  | frameOutsideBuf
  deriving DecidableEq, Repr

/-- The results of a step in which nothing was called (R41, R100). -/
def Outputs.quiet : Outputs :=
  { rxStatus := .none, rxFrameLen := 0, rdData := none, txByte := none, result := none }

/-- The state right after power-up and `reset`, for given parameters (R26, R35, R210): nothing has been
written to either buffer (log 3), nothing has been called yet (log 1). -/
def State.resetWith (rxCap txCap : Half) : State :=
  { rx := { state := .waitingForDelimiter, cursor := 0, remaining := 0, checksum := 0, buf := [], cap := rxCap }
    tx := { phase := .txIdle, index := 0, sum := 0, len := 0, payload := [], cap := txCap, draw := 0 }
    out := .quiet
    input := [] }

/-- The machine right after reset, at the parameter values of log 2. -/
def State.reset : State := .resetWith Config.rxCapAtReset Config.txCapAtReset

end Sys2Proof.Machine
end

