-- ==== Sys2Proof/Machine/Ops.lean ====
section
/-! DEFINITION. The named operations over buffers, registers and outputs, and the one operation that ends a
frame attempt by a rejection. -/

namespace Sys2Proof.Machine

/-- The byte listed at an address, if any. -/
def Memory.find : Memory → Nat → Option Byte
  | [], _ => none
  | (x, w) :: m, a => if a = x then some w else Memory.find m a

/-- Set one byte and change no other (R53), keeping addresses strictly rising. -/
def Memory.write : Memory → Nat → Byte → Memory
  | [], a, v => [(a, v)]
  | (x, w) :: m, a, v =>
    if a < x then (a, v) :: (x, w) :: m
    else if a = x then (a, v) :: m
    else (x, w) :: Memory.write m a v

/-- Set the bytes from an address upward, in order. -/
def Memory.writeAll : Memory → Nat → List Byte → Memory
  | m, _, [] => m
  | m, a, v :: vs => Memory.writeAll (Memory.write m a v) (a + 1) vs

/-- Every listed address is above the first argument, and they rise strictly. -/
def Memory.risesAbove : Nat → Memory → Bool
  | _, [] => true
  | lo, (x, _) :: m => decide (lo < x) && Memory.risesAbove x m

/-- The canonical form of a buffer: addresses strictly rising. -/
def Memory.wf : Memory → Bool
  | [] => true
  | (x, _) :: m => Memory.risesAbove x m

/-- Every listed address is below a bound. -/
def Memory.below (bound : Nat) (m : Memory) : Bool := m.all fun c => decide (c.1 < bound)

/-- `MemRead(rx.buf, a, 1)` (R54): the byte written last, else the free power-up value (U1). -/
def Rx.read (r : Rx) (a : Nat) : Byte := (Memory.find r.buf a).getD (Config.scratchByte a)

/-- `MemRead(tx.payload, a, 1)` (R55): the byte written last, else a free value (R210, U6). -/
def Tx.read (t : Tx) (a : Nat) : Byte := (Memory.find t.payload a).getD (Config.payloadByte t.draw a)

/-- The byte at `a` belongs to the sequence in progress: it is in `tx.payload[0 .. tx.len)` and `tx.phase` is not
`TxIdle`. A write there is outside the contract (R34, R215, U7). -/
def Tx.sends (t : Tx) (a : Nat) : Bool := decide (t.phase ≠ .txIdle) && decide (a < t.len.toNat)

/-- `rx.buf[0 .. n)` (R37). -/
def Rx.bytes (r : Rx) (n : Nat) : List Byte := (List.range n).map r.read

/-- `tx.payload[0 .. n)` (R37). -/
def Tx.bytes (t : Tx) (n : Nat) : List Byte := (List.range n).map t.read

/-- The code of a parse-state tag (R21). -/
def RxState.code : RxState → BitVec 3
  | .waitingForDelimiter => 0
  | .receivingLengthMsb => 1
  | .receivingLengthLsb => 2
  | .receivingData => 3
  | .receivingChecksum => 4

/-- The code of a phase tag (R30). -/
def TxPhase.code : TxPhase → BitVec 3
  | .txIdle => 0
  | .txDelimiter => 1
  | .txLengthMsb => 2
  | .txLengthLsb => 3
  | .txData => 4
  | .txChecksum => 5

/-- The code of a status (R181). -/
def RxStatus.code : RxStatus → BitVec 2
  | .none => 0
  | .frameAccepted => 1
  | .checksumRejected => 2
  | .capacityRejected => 3

/-- The parse-state tag of a code; codes 5, 6 and 7 name none (R21). -/
def RxState.ofCode (c : BitVec 3) : Option RxState :=
  match c.toNat with
  | 0 => some .waitingForDelimiter
  | 1 => some .receivingLengthMsb
  | 2 => some .receivingLengthLsb
  | 3 => some .receivingData
  | 4 => some .receivingChecksum
  | _ => none

/-- The phase tag of a code; codes 6 and 7 name none (R30). -/
def TxPhase.ofCode (c : BitVec 3) : Option TxPhase :=
  match c.toNat with
  | 0 => some .txIdle
  | 1 => some .txDelimiter
  | 2 => some .txLengthMsb
  | 3 => some .txLengthLsb
  | 4 => some .txData
  | 5 => some .txChecksum
  | _ => none

/-- A receiver step: the receiver after it, and `out <- (status, len)` (R100). -/
def State.pushed (s : State) (rx : Rx) (status : RxStatus) (len : Half) : State :=
  { s with rx := rx, out := { s.out with rxStatus := status, rxFrameLen := len } }

/-- A serializer step: the serializer after it, and `emit v` or `emit nothing` (R131). -/
def State.emitted (s : State) (tx : Tx) (v : Option Byte) : State :=
  { s with tx := tx, out := { s.out with txByte := v } }

/-- A collaborator's operation returns. -/
def State.returned (s : State) (r : CallResult) : State :=
  { s with out := { s.out with result := some r } }

/-- `RxResetCounters()` (R107): state, cursor, remaining and checksum; not the buffer. -/
def Rx.resetCounters (r : Rx) : Rx :=
  { r with state := .waitingForDelimiter, cursor := 0, remaining := 0, checksum := 0 }

/-- The serializer's registers at their reset values (R35, R210); not the buffer. -/
def Tx.resetRegisters (t : Tx) : Tx :=
  { t with phase := .txIdle, index := 0, sum := 0, len := 0 }

/-- `reject <Condition>` (R10, R108, R180, R189): all that this block has of taking an exception: nothing is
saved, `RxResetCounters()` runs, and the condition's status goes out with length 0. There is no
return from it (R190). -/
def State.reject (s : State) (condition : RxStatus) : State :=
  s.pushed s.rx.resetCounters condition 0

/-- The frame that the last step's `push` handed back, if it accepted one (R37, R100). -/
def State.acceptedFrame (s : State) : Option (List Byte) :=
  match s.out.rxStatus with
  | .frameAccepted => some (s.rx.bytes s.out.rxFrameLen.toNat)
  | _ => none

/-- The step begins: the results of the step before are gone (R41, R189). -/
def State.begin (s : State) (rest : List Action) : State :=
  { s with out := .quiet, input := rest }

end Sys2Proof.Machine
end

