-- ==== Sys2Proof/Machine/Control.lean ====
section
/-! DEFINITION. The `reset` operation (R197, R210). -/

namespace Sys2Proof.Machine

/-- RESET (R210): every register of both units; both buffers stay; `status` None and no byte (R197). -/
def execReset (s : State) : Host.Outcome State Fault Refusal :=
  .next ((s.pushed s.rx.resetCounters .none 0).emitted s.tx.resetRegisters none)

end Sys2Proof.Machine
end

