-- ==== Sys2Proof/Machine/Operands.lean ====
section
/-! DEFINITION. The operand forms: the length field (R78, R79), the selector words taken from the tags (R86),
and the bytes a message is made of. -/

namespace Sys2Proof.Machine

/-- `zext_16(b)` (R10). -/
def zext16 (b : Byte) : Half := b.setWidth 16

/-- `zext_16(b) << 8` (R78, R103). -/
def lengthHigh (b : Byte) : Half := zext16 b <<< 8

/-- `remaining + zext_16(b)` (R78, R104), a 16-bit sum. -/
def lengthWithLow (remaining : Half) (b : Byte) : Half := remaining + zext16 b

/-- The selector of `push(b)`: the tag and the byte (R76, R86). -/
def pushSelector (state : RxState) (b : Byte) : Selector := .rx (rxWord state.code b)

/-- The selector of `next()`: the phase (R77, R86). -/
def nextSelector (phase : TxPhase) : Selector := .tx phase.code

/-- `decode_status` (R159). -/
def decodeStatus (code : Byte) : Option AtStatus :=
  match code.toNat with
  | 0 => some .ok
  | 1 => some .error
  | 2 => some .invalidCommand
  | 3 => some .invalidParameter
  | 4 => some .txFailure
  | _ => none

/-- `respondsTo(id)` (R157). -/
def ResponseKind.respondsTo (kind : ResponseKind) (id : Byte) : Bool :=
  match kind with
  | .atCommandResponse => decide (id = idAtCommandResponse)
  | .zigbeeReceivePacket => decide (id = idZigbeeReceivePacket)

/-- The exact encoded size of an AT command (R152). -/
def atCommandRequired (m : AtCommand) : Nat := if m.parameter.isSome then 5 else 4

/-- The exact encoded size of a transmit request (R153). -/
def transmitRequestRequired (m : TransmitRequest) : Nat := 14 + m.payload.length

end Sys2Proof.Machine
end

