-- ==== Sys2Proof/Machine/Payload.lean ====
section
/-! DEFINITION. The four message shapes of the collaborators (42_payload_formats.md): `build` against
`tx.payload` (R156; log 13) and `parse` of a payload. -/

namespace Sys2Proof.Machine

/-- `build` (R151, R156): check the exact size first; on `BufferTooSmall` every byte of the buffer is a fresh free
value (U6, D14; log 5); on success the bytes stand at `tx.payload[0 .. required)` and the rest is
unchanged. Every message starts at index 0, so building one over a sequence in progress that has a
payload byte is outside the contract (R215, U7; log 10). -/
def State.build (s : State) (required : Nat) (layout : List Byte) : Host.Outcome State Fault Refusal :=
  if s.tx.cap.toNat < required then
    .next (({ s with tx := { s.tx with payload := [], draw := s.tx.draw + 1 } }).returned .bufferTooSmall)
  else if s.tx.sends 0 then .refused .payloadInUse
  else
    .next (({ s with tx := { s.tx with payload := Memory.writeAll s.tx.payload 0 layout } }).returned
      (.built (BitVec.ofNat 16 required)))

/-- AT_COMMAND (R152). -/
def execAtCommand (m : AtCommand) (s : State) : Host.Outcome State Fault Refusal :=
  s.build (atCommandRequired m) m.layout

/-- TRANSMIT_REQUEST (R153). -/
def execTransmitRequest (m : TransmitRequest) (s : State) : Host.Outcome State Fault Refusal :=
  s.build (transmitRequestRequired m) m.layout

/-- The checks of R162 on a payload of the right size (R158). -/
def atResponseOf (id frameId name0 name1 status : Byte) (data : Option Byte) : CallResult :=
  if id = idAtCommandResponse then
    match decodeStatus status with
    | some st => .atResponse ⟨frameId, name0, name1, st, data⟩
    | none => .parseError .invalidEnumValue
  else .parseError .idMismatch

/-- `AtCommandResponse.parse` (R158, R162): length 5 or 6, then identifier, then status. -/
def parseAtResponse : List Byte → CallResult
  | [id, frameId, name0, name1, status] => atResponseOf id frameId name0 name1 status none
  | [id, frameId, name0, name1, status, data] => atResponseOf id frameId name0 name1 status (some data)
  | _ => .parseError .sizeOutOfRange

/-- `ZigbeeReceivePacket.parse` (R160 to R162): length at least 12, then identifier; flag bits 2, 3, 4 and 7
are ignored. -/
def parseZigbee : List Byte → CallResult
  | id :: a0 :: a1 :: a2 :: a3 :: a4 :: a5 :: a6 :: a7 :: n0 :: n1 :: flags :: payload =>
    if id = idZigbeeReceivePacket then
      .zigbeePacket ⟨joinAddr a0 a1 a2 a3 a4 a5 a6 a7, joinHalf n0 n1, flags.getLsbD 0, flags.getLsbD 1,
        flags.getLsbD 5, flags.getLsbD 6, payload⟩
    else .parseError .idMismatch
  | _ => .parseError .sizeOutOfRange

/-- AT_COMMAND_RESPONSE (R158). -/
def execAtCommandResponse (buffer : List Byte) (s : State) : Host.Outcome State Fault Refusal :=
  .next (s.returned (parseAtResponse buffer))

/-- ZIGBEE_RECEIVE_PACKET (R160). -/
def execZigbeeReceivePacket (buffer : List Byte) (s : State) : Host.Outcome State Fault Refusal :=
  .next (s.returned (parseZigbee buffer))

end Sys2Proof.Machine
end

