-- ==== Sys2Proof/Machine/Flags.lean ====
section
/-! DEFINITION. The block has no flag (R38). What it computes beside its counters is the 8-bit checksum and
two comparisons that no state holds (R38, R74). -/

namespace Sys2Proof.Machine

/-- `(s + b) mod 256`: the carry is dropped and recorded nowhere (R9, R24, R32). -/
def addChecksum (sum b : Byte) : Byte := sum + b

/-- `0xFF - s`, a byte; no borrow (R9, R74). -/
def checksumByte (sum : Byte) : Byte := 0xFF - sum

/-- The comparison of RX_CKSUM, computed and consumed inside the step (R38, R106). -/
def checksumMatches (sum b : Byte) : Bool := decide (b = checksumByte sum)

/-- The capacity check, a strict unsigned comparison (R103, R104). -/
def exceedsCap (n cap : Half) : Bool := decide (cap < n)

end Sys2Proof.Machine
end

