-- ==== Sys2Proof/Machine/Receiver.lean ====
section
/-! DEFINITION. The six operations of `push` (40_receiver.md). Each is what the operation does once it is
selected; the decoder selects (R76; log 12). -/

namespace Sys2Proof.Machine

/-- RX_WAIT_DISCARD (R101): no state element changes. -/
def execRxWaitDiscard (_b : Byte) (s : State) : Host.Outcome State Fault Refusal :=
  .next (s.pushed s.rx .none 0)

/-- RX_WAIT_SYNC (R102): the delimiter is neither stored nor summed. -/
def execRxWaitSync (s : State) : Host.Outcome State Fault Refusal :=
  .next (s.pushed { s.rx with state := .receivingLengthMsb } .none 0)

/-- RX_LEN_MSB (R103). -/
def execRxLenMsb (b : Byte) (s : State) : Host.Outcome State Fault Refusal :=
  let hi := lengthHigh b
  if exceedsCap hi s.rx.cap then .next (s.reject .capacityRejected)
  else .next (s.pushed { s.rx with remaining := hi, state := .receivingLengthLsb } .none 0)

/-- RX_LEN_LSB (R104). -/
def execRxLenLsb (b : Byte) (s : State) : Host.Outcome State Fault Refusal :=
  let n := lengthWithLow s.rx.remaining b
  if exceedsCap n s.rx.cap then .next (s.reject .capacityRejected)
  else
    let after := if n = 0 then RxState.receivingChecksum else .receivingData
    .next (s.pushed { s.rx with remaining := n, state := after } .none 0)

/-- RX_DATA (R105): the next-state test reads the decremented counter (C8); a cursor outside the buffer is
the fault of R53's precondition (log 8); the decrement is 16-bit (log 7). -/
def execRxData (b : Byte) (s : State) : Host.Outcome State Fault Refusal :=
  let r := s.rx
  if r.cursor < r.cap then
    let left := r.remaining - 1
    let after := if 0 < left then RxState.receivingData else .receivingChecksum
    .next (s.pushed
      { r with
        buf := Memory.write r.buf r.cursor.toNat b
        cursor := r.cursor + 1
        checksum := addChecksum r.checksum b
        remaining := left
        state := after } .none 0)
  else .fault .rxBufOutOfRange

/-- RX_CKSUM (R106): the length is the cursor before the reset (C6). -/
def execRxCksum (b : Byte) (s : State) : Host.Outcome State Fault Refusal :=
  if checksumMatches s.rx.checksum b then
    .next (s.pushed s.rx.resetCounters .frameAccepted s.rx.cursor)
  else .next (s.reject .checksumRejected)

end Sys2Proof.Machine
end

