-- ==== Sys2Proof/Machine/Serializer.lean ====
section
/-! DEFINITION. `next()` in its six phases, and `serialize(L)` (41_serializer.md). -/

namespace Sys2Proof.Machine

/-- TX_IDLE (R137): emits nothing, changes nothing. -/
def execTxIdle (s : State) : Host.Outcome State Fault Refusal :=
  .next (s.emitted s.tx none)

/-- TX_DELIM (R132). -/
def execTxDelim (s : State) : Host.Outcome State Fault Refusal :=
  .next (s.emitted { s.tx with phase := .txLengthMsb } (some delimiter))

/-- TX_LEN_MSB (R133): `tx.len / 256`. -/
def execTxLenMsb (s : State) : Host.Outcome State Fault Refusal :=
  .next (s.emitted { s.tx with phase := .txLengthLsb } (some (hiByte s.tx.len)))

/-- TX_LEN_LSB (R134): `tx.len % 256`; an empty payload skips the data phase. -/
def execTxLenLsb (s : State) : Host.Outcome State Fault Refusal :=
  let after := if s.tx.len = 0 then TxPhase.txChecksum else .txData
  .next (s.emitted { s.tx with phase := after } (some (loByte s.tx.len)))

/-- TX_DATA (R135): one byte read, emitted and summed; an index outside the buffer is a fault (log 8). -/
def execTxData (s : State) : Host.Outcome State Fault Refusal :=
  let t := s.tx
  if t.index < t.cap then
    let v := t.read t.index.toNat
    let after := if t.index + 1 < t.len then TxPhase.txData else .txChecksum
    .next (s.emitted { t with sum := addChecksum t.sum v, index := t.index + 1, phase := after } (some v))
  else .fault .txPayloadOutOfRange

/-- TX_CKSUM (R136): length, index and sum keep their values. -/
def execTxCksum (s : State) : Host.Outcome State Fault Refusal :=
  .next (s.emitted { s.tx with phase := .txIdle } (some (checksumByte s.tx.sum)))

/-- TX_START (R130), from any phase; a length over `TX_CAP` has no behaviour (R140, U5; log 9). -/
def execTxStart (len : Half) (s : State) : Host.Outcome State Fault Refusal :=
  if len ≤ s.tx.cap then
    .next (s.emitted { s.tx with len := len, index := 0, sum := 0, phase := .txDelimiter } none)
  else .refused .lengthExceedsTxCap

end Sys2Proof.Machine
end

