-- ==== Sys2Proof/Machine/Dispatch.lean ====
section
/-! DEFINITION. One arm per constructor of `Instr`: the meaning of a selected operation. -/

namespace Sys2Proof.Machine

def exec (i : Instr) (s : State) : Host.Outcome State Fault Refusal :=
  match i with
  | .rxWaitDiscard b => Sys2Proof.Machine.execRxWaitDiscard b s
  | .rxWaitSync => Sys2Proof.Machine.execRxWaitSync s
  | .rxLenMsb b => Sys2Proof.Machine.execRxLenMsb b s
  | .rxLenLsb b => Sys2Proof.Machine.execRxLenLsb b s
  | .rxData b => Sys2Proof.Machine.execRxData b s
  | .rxCksum b => Sys2Proof.Machine.execRxCksum b s
  | .txIdle => Sys2Proof.Machine.execTxIdle s
  | .txDelim => Sys2Proof.Machine.execTxDelim s
  | .txLenMsb => Sys2Proof.Machine.execTxLenMsb s
  | .txLenLsb => Sys2Proof.Machine.execTxLenLsb s
  | .txData => Sys2Proof.Machine.execTxData s
  | .txCksum => Sys2Proof.Machine.execTxCksum s
  | .txStart len => Sys2Proof.Machine.execTxStart len s
  | .reset => Sys2Proof.Machine.execReset s
  | .atCommand m => Sys2Proof.Machine.execAtCommand m s
  | .transmitRequest m => Sys2Proof.Machine.execTransmitRequest m s
  | .atCommandResponse buffer => Sys2Proof.Machine.execAtCommandResponse buffer s
  | .zigbeeReceivePacket buffer => Sys2Proof.Machine.execZigbeeReceivePacket buffer s

end Sys2Proof.Machine
end

