-- ==== Sys2Proof/Machine/Fetch.lean ====
section
/-! DEFINITION. What one call of the outside selects, and running it (R76, R77, R188, R228). -/

namespace Sys2Proof.Machine

/-- What the strobes ask of the serializer, from the phase before the step: `serialize` overrides `next` (R188). -/
def serializerSelectors (p : Strobes) (phase : TxPhase) : List Selector :=
  match p.start with
  | some len => [.serialize len]
  | none => if p.next then [nextSelector phase] else []

/-- The operations one step's strobes select, from the tags before the step (R10, R41, R188): `reset` overrides
everything, a `push` and a serializer operation both take place. -/
def strobeSelectors (p : Strobes) (s : State) : List Selector :=
  if p.reset then [.reset]
  else
    (match p.push with
      | some b => [pushSelector s.rx.state b]
      | none => [])
    ++ serializerSelectors p s.tx.phase

/-- Decode each operation that the strobes select and run it, in order; stop at the first that does not go on. An
unused tag code has no meaning (R117, U3). -/
def runSelectors : List Selector → State → Host.Outcome State Fault Refusal
  | [], s => .next s
  | sel :: rest, s =>
    match decode sel with
    | .error e => .refused (.unusedTag e)
    | .ok i =>
      match exec i s with
      | .next t => runSelectors rest t
      | .fault f => .fault f
      | .refused r => .refused r

/-- The frame consumer reads `rx.buf[a]` (R54): no effect on the block; no meaning at or past `RX_CAP` (U4). -/
def consumerRead (a : Half) (s : State) : Host.Outcome State Fault Refusal :=
  if a < s.rx.cap then .next { s with out := { s.out with rdData := some (s.rx.read a.toNat) } }
  else .refused .readOutsideBuf

/-- A collaborator's operation on the bytes of a message: the one its first byte selects (R83, R86). Bytes that are
no message of the four shapes match no known variant and are ignored (R163, U12; log 14). -/
def callMessage (bytes : List Byte) (s : State) : Host.Outcome State Fault Refusal :=
  match decode (.payload bytes) with
  | .ok i => exec i s
  | .error _ => .next (s.returned .ignored)

/-- The payload owner writes `tx.payload[a]` (R34, R55). A byte of the sequence in progress may not be written (R215,
U7; log 10); past `TX_CAP` there is no byte (R50; log 11). -/
def ownerWrite (a : Half) (v : Byte) (s : State) : Host.Outcome State Fault Refusal :=
  if a < s.tx.cap then
    if s.tx.sends a.toNat then .refused .payloadInUse
    else .next { s with tx := { s.tx with payload := Memory.write s.tx.payload a.toNat v } }
  else .refused .writeOutsidePayload

/-- The consumer takes `rx.buf[0 .. len)` (R37, R165); past `RX_CAP` there is no such byte (U4). -/
def consumerTake (len : Half) (s : State) : Except Refusal (List Byte) :=
  if len ≤ s.rx.cap then .ok (s.rx.bytes len.toNat) else .error .frameOutsideBuf

/-- The probe of R163: the variant that responds to the first byte, if any. -/
def probe : List Byte → Option ResponseKind
  | [] => none
  | id :: _ =>
    if ResponseKind.respondsTo .atCommandResponse id then some .atCommandResponse
    else if ResponseKind.respondsTo .zigbeeReceivePacket id then some .zigbeeReceivePacket
    else none

/-- `parse` of one variant as an operation (R157). -/
def parseInstr (kind : ResponseKind) (buffer : List Byte) : Instr :=
  match kind with
  | .atCommandResponse => .atCommandResponse buffer
  | .zigbeeReceivePacket => .zigbeeReceivePacket buffer

/-- The consumer probes a received payload and parses it, or ignores it (R163, R165). -/
def consumerReceive (len : Half) (s : State) : Host.Outcome State Fault Refusal :=
  match consumerTake len s with
  | .error r => .refused r
  | .ok buffer =>
    match probe buffer with
    | some kind => exec (parseInstr kind buffer) s
    | none => .next (s.returned .ignored)

/-- The consumer parses a received payload as one variant, without the probe (R162). -/
def consumerParse (kind : ResponseKind) (len : Half) (s : State) : Host.Outcome State Fault Refusal :=
  match consumerTake len s with
  | .error r => .refused r
  | .ok buffer => exec (parseInstr kind buffer) s

/-- One call of the outside, on the state with the last step's results cleared. -/
def perform (a : Action) (s : State) : Host.Outcome State Fault Refusal :=
  match a with
  | .strobe p => runSelectors (strobeSelectors p s) s
  | .readBuf i => consumerRead i s
  | .writePayload i v => ownerWrite i v s
  | .message bytes => callMessage bytes s
  | .receive len => consumerReceive len s
  | .parseAs kind len => consumerParse kind len s

/-- The calls of R84 as the outside makes them, one strobe at a time. -/
def pushCall (b : Byte) : Action := .strobe { reset := false, push := some b, start := none, next := false }
def serializeCall (len : Half) : Action := .strobe { reset := false, push := none, start := some len, next := false }
def nextCall : Action := .strobe { reset := false, push := none, start := none, next := true }
def resetCall : Action := .strobe { reset := true, push := none, start := none, next := false }

/-- The state in which the next call is one that a selector selects: the tag the selector word names, and the
call at the head of the pending calls. A word with an unused tag code has no such state (U3). -/
def State.withSelector (s : State) : Selector → State
  | .rx w =>
    match RxState.ofCode (w.extractLsb' 8 3) with
    | some st => { s with rx := { s.rx with state := st }, input := pushCall (w.extractLsb' 0 8) :: s.input }
    | none => s
  | .tx w =>
    match TxPhase.ofCode w with
    | some ph => { s with tx := { s.tx with phase := ph }, input := nextCall :: s.input }
    | none => s
  | .serialize len => { s with input := serializeCall len :: s.input }
  | .reset => { s with input := resetCall :: s.input }
  | .payload bytes => { s with input := .message bytes :: s.input }

end Sys2Proof.Machine
end

