-- ==== Sys2Proof/Machine/Step.lean ====
section
/-! DEFINITION. One step of the machine: the next pending call of the outside is taken and performed (R6). -/

namespace Sys2Proof.Machine

/-- One step. With no call pending the units keep their state (R41, R114, R194). -/
def step (s : State) : Host.Outcome State Fault Refusal :=
  match s.input with
  | [] => .next (s.begin [])
  | a :: rest => perform a (s.begin rest)

/-- `s` with the instruction of a table word as the one the next step runs (log 1): the tag the word names and
the pending call. -/
def State.withFetchWord (s : State) (nbits w : Nat) : State :=
  match tableSelector nbits w with
  | some sel => s.withSelector sel
  | none => s

end Sys2Proof.Machine
end

