-- ==== Sys2Proof/Machine/Wire.lean ====
section
/-! DEFINITION. The wire frame (R70) and the composites of R85. -/

namespace Sys2Proof.Machine

/-- The sum of payload bytes mod 256, the empty sum being 0 (R74). -/
def payloadSum (payload : List Byte) : Byte := BitVec.ofNat 8 (payload.map BitVec.toNat).sum

/-- `frame(P)` (R70, R85): delimiter, length high byte, length low byte, payload, checksum byte. -/
def frame (payload : List Byte) : List Byte :=
  [delimiter, BitVec.ofNat 8 (payload.length / 256), BitVec.ofNat 8 (payload.length % 256)]
    ++ payload ++ [0xFF - payloadSum payload]

/-- `feed` (R85): one `push` per byte, in order. -/
def feed (bytes : List Byte) : List Action := bytes.map pushCall

/-- The first `n` calls of `drain` (R85). -/
def drain (n : Nat) : List Action := List.replicate n nextCall

/-- `send(P)` without its `drain` (R85): write the payload from index 0, then `serialize(L)`. -/
def send (payload : List Byte) : List Action :=
  (List.zipIdx payload).map (fun p => Action.writePayload (BitVec.ofNat 16 p.2) p.1)
    ++ [serializeCall (BitVec.ofNat 16 payload.length)]

end Sys2Proof.Machine
end

