-- ==== Sys2Proof/Safety.lean ====
section
/-! DEFINITION. The invariants of the two units (R27, R36), the premises a claim takes (R229), and which calls
of the outside touch what. -/

namespace Sys2Proof.Machine

/-- `RxAtReset` (R229, R26): the four registers at their reset values, the buffer arbitrary. -/
def Rx.AtReset (r : Rx) : Prop :=
  r.state = .waitingForDelimiter ∧ r.cursor = 0 ∧ r.remaining = 0 ∧ r.checksum = 0

/-- `TxAtReset` (R229, R35). -/
def Tx.AtReset (t : Tx) : Prop :=
  t.phase = .txIdle ∧ t.index = 0 ∧ t.sum = 0 ∧ t.len = 0

/-- `RxInvariant` (R27): I-a, then the clause of the current state, I-b to I-f. The declared length `N` of I-d and
I-e is not state; I-d keeps `cursor + remaining` within `RX_CAP`. -/
def Rx.Inv (r : Rx) : Prop :=
  r.cursor ≤ r.cap ∧
  match r.state with
  | .waitingForDelimiter => r.cursor = 0 ∧ r.remaining = 0 ∧ r.checksum = 0
  | .receivingLengthMsb => r.cursor = 0 ∧ r.remaining = 0 ∧ r.checksum = 0
  | .receivingLengthLsb =>
    r.cursor = 0 ∧ r.checksum = 0 ∧ r.remaining.toNat % 256 = 0 ∧ r.remaining ≤ r.cap
  | .receivingData =>
    1 ≤ r.remaining.toNat ∧ r.cursor.toNat + r.remaining.toNat ≤ r.cap.toNat
      ∧ r.checksum = payloadSum (r.bytes r.cursor.toNat)
  | .receivingChecksum => r.remaining = 0 ∧ r.checksum = payloadSum (r.bytes r.cursor.toNat)

/-- `TxInvariant` (R36), but for its last clause (`Tx.SumInv`). -/
def Tx.Inv (t : Tx) : Prop :=
  t.index ≤ t.len ∧ t.len ≤ t.cap ∧
  match t.phase with
  | .txIdle => True
  | .txDelimiter => t.index = 0 ∧ t.sum = 0
  | .txLengthMsb => t.index = 0 ∧ t.sum = 0
  | .txLengthLsb => t.index = 0 ∧ t.sum = 0
  | .txData => t.index < t.len
  | .txChecksum => t.index = t.len

/-- The last clause of R36: the accumulator is the sum of the bytes emitted so far. It needs the payload to stay
as it was when they were emitted (R215). -/
def Tx.SumInv (t : Tx) : Prop :=
  match t.phase with
  | .txData => t.sum = payloadSum (t.bytes t.index.toNat)
  | .txChecksum => t.sum = payloadSum (t.bytes t.index.toNat)
  | _ => True

/-- A buffer is in its canonical form and holds only addresses below its capacity (R50). -/
def Memory.Within (m : Memory) (cap : Half) : Prop :=
  Memory.wf m = true ∧ Memory.below cap.toNat m = true

/-- What every step keeps. -/
def State.Inv (s : State) : Prop :=
  s.rx.Inv ∧ s.tx.Inv ∧ Memory.Within s.rx.buf s.rx.cap ∧ Memory.Within s.tx.payload s.tx.cap

/-- The call has a `push` among its strobes that takes place (R188). -/
def Action.pushes : Action → Bool
  | .strobe p => !p.reset && p.push.isSome
  | _ => false

/-- The call is a `reset` (R188). -/
def Action.resets : Action → Bool
  | .strobe p => p.reset
  | _ => false

/-- The bytes are a command, which its call builds into `tx.payload` (R156). -/
def isCommand (bytes : List Byte) : Bool :=
  match decode (.payload bytes) with
  | .ok (.atCommand _) => true
  | .ok (.transmitRequest _) => true
  | _ => false

/-- The call may change `tx.payload`: the owner's write, or a command that is built there (R156). -/
def Action.writesPayload : Action → Bool
  | .writePayload _ _ => true
  | .message bytes => isCommand bytes
  | _ => false

/-- The call may write a byte of the sequence in progress (R215): the owner's write at an index of it, or a command,
which is built from index 0 on. -/
def Action.disturbs (t : Tx) : Action → Bool
  | .writePayload a _ => t.sends a.toNat
  | .message bytes => isCommand bytes && t.sends 0
  | _ => false

/-- The length fits wherever the call is a `serialize` that takes place (R140). -/
def Action.lenFits (cap : Half) : Action → Bool
  | .strobe p => p.reset || (match p.start with | some len => decide (len ≤ cap) | none => true)
  | _ => true

/-- `LenFits` (R229). -/
def State.LenFits (s : State) : Prop := ∀ a ∈ s.input, a.lenFits s.tx.cap = true

/-- `StreamIntact` (R229): the pending calls push exactly the bytes sent, each once and in order. -/
def State.StreamIntact (s : State) (sent : List Byte) : Prop :=
  s.input.filterMap (fun a => match a with
    | .strobe p => if p.reset then none else p.push
    | _ => none) = sent

/-- `FrameReadInWindow` (R229), for the next `n` pending calls: no `push` among them. -/
def State.FrameReadInWindow (s : State) (n : Nat) : Prop := ∀ a ∈ s.input.take n, a.pushes = false

/-- Two receivers that differ at most in the bytes of their buffers. -/
def Rx.SameButBuf (r r' : Rx) : Prop :=
  r.state = r'.state ∧ r.cursor = r'.cursor ∧ r.remaining = r'.remaining ∧ r.checksum = r'.checksum
    ∧ r.cap = r'.cap

/-- `k` steps of the machine end in the next state `t`. -/
def runsTo (k : Nat) (s t : State) : Prop := Host.Core.run Sys2Proof.core k s = .next t

/-- `PayloadStable` (R215, R229): wherever the run comes, its next call does not write `tx.payload[0 .. tx.len)` while
`tx.phase` is not `TxIdle`. -/
def State.PayloadStable (s : State) : Prop :=
  ∀ (k : Nat) (t : State), runsTo k s t → ∀ a, t.input.head? = some a → a.disturbs t.tx = false

end Sys2Proof.Machine
end

