-- ==== Sys2Proof/Certificates/Slice0/Obligations.lean ====
section
/-! DEFINITION. What is stated of the model, in the order of the spec's files. Each is `def Obligations.<Name>`. -/

open Sys2Proof Sys2Proof.Machine

/-! ## Selection and encoding (30_encoding.md) -/

/-- For every well-formed operation, with every operand at every value, decoding its encoding gives it back. -/
def Obligations.DecodeOfEncodeIsIdentity : Prop :=
  ∀ i : Instr, i.wf = true → decode (encode i) = .ok i

/-- Every selector that selects an operation selects a well-formed one and, but for the bits of a transmit request's
options byte that no field sets (ignored on decode, U12), is that operation's encoding: no two selectors that
differ elsewhere select the same operation. That command bytes of a wrong length select nothing is the
model's choice (log 14). -/
def Obligations.EncodeOfDecodeIsIdentity : Prop :=
  ∀ (sel : Selector) (i : Instr), decode sel = .ok i → i.wf = true ∧ encode i = sel.canonical

/-- Selector words written out from R86 and the layouts of R152, R153, R158, R160 decode to their operations. -/
def Obligations.WrittenOutWordsDecode : Prop :=
  decode (.rx 0b000_01111110) = .ok .rxWaitSync ∧
  decode (.rx 0b000_01111101) = .ok (.rxWaitDiscard 0x7D) ∧
  decode (.rx 0b001_01111110) = .ok (.rxLenMsb 0x7E) ∧
  decode (.rx 0b010_00101100) = .ok (.rxLenLsb 0x2C) ∧
  decode (.rx 0b011_01001110) = .ok (.rxData 0x4E) ∧
  decode (.rx 0b100_00001101) = .ok (.rxCksum 0x0D) ∧
  decode (.tx 0b000) = .ok .txIdle ∧
  decode (.tx 0b100) = .ok .txData ∧
  decode (.payload [0x08, 0x52, 0x4E, 0x4A, 0x4B]) = .ok (.atCommand ⟨0x52, 0x4E, 0x4A, some 0x4B⟩) ∧
  decode (.payload [0x10, 0x01, 0x00, 0x13, 0xA2, 0x00, 0x40, 0x0A, 0x01, 0x27, 0xFF, 0xFE, 0x00, 0x61, 0x54])
    = .ok (.transmitRequest ⟨0x01, 0x0013A200400A0127, 0xFFFE, 0x00, true, true, true, [0x54]⟩) ∧
  decode (.payload [0x88, 0x52, 0x4E, 0x4A, 0x00]) = .ok (.atCommandResponse [0x88, 0x52, 0x4E, 0x4A, 0x00])

/-- R76: the operation a `push(b)` performs is selected by the tag, and in `WaitingForDelimiter` by whether the byte is
`0x7E`; in every other state all 256 bytes select the same operation. -/
def Obligations.PushSelectsOneOperation : Prop :=
  ∀ (st : RxState) (b : Byte),
    decode (pushSelector st b) = .ok
      (match st with
        | .waitingForDelimiter => if b.toNat = 0x7E then .rxWaitSync else .rxWaitDiscard b
        | .receivingLengthMsb => .rxLenMsb b
        | .receivingLengthLsb => .rxLenLsb b
        | .receivingData => .rxData b
        | .receivingChecksum => .rxCksum b)

/-- R77: the operation a `next()` performs is selected by the phase alone. -/
def Obligations.NextSelectsOneOperation : Prop :=
  decode (nextSelector .txIdle) = .ok .txIdle ∧
  decode (nextSelector .txDelimiter) = .ok .txDelim ∧
  decode (nextSelector .txLengthMsb) = .ok .txLenMsb ∧
  decode (nextSelector .txLengthLsb) = .ok .txLenLsb ∧
  decode (nextSelector .txData) = .ok .txData ∧
  decode (nextSelector .txChecksum) = .ok .txCksum

/-- R21, R30, R117, U3: the tag codes 5, 6, 7 and the phase codes 6, 7 select nothing, whatever the byte. -/
def Obligations.UnusedTagsAreRefused : Prop :=
  (∀ (tag : BitVec 3) (b : Byte), 5 ≤ tag.toNat → decode (.rx (rxWord tag b)) = .error .unusedRxTag) ∧
  (∀ phase : BitVec 3, 6 ≤ phase.toNat → decode (.tx phase) = .error .unusedTxPhase)

/-- R78 and R79: the two length bytes are `L / 256` and `L % 256`, and assembling them gives `L` back. -/
def Obligations.LengthBytesReassemble : Prop :=
  ∀ len : Half,
    (hiByte len).toNat = len.toNat / 256 ∧ (loByte len).toNat = len.toNat % 256 ∧
    (lengthHigh (hiByte len)).toNat = 256 * (len.toNat / 256) ∧
    lengthWithLow (lengthHigh (hiByte len)) (loByte len) = len

/-! ## The step -/

/-- A step runs the operation that the pending call selects: it takes the call off the pending calls, clears the last
step's results, and is `exec` of the decoded operation there. Log 1. -/
def Obligations.StepRunsDecodedInstruction : Prop :=
  ∀ (s : State) (rest : List Action) (i : Instr),
    (∀ b, s.input = pushCall b :: rest → decode (pushSelector s.rx.state b) = .ok i →
      step s = exec i (s.begin rest)) ∧
    (s.input = nextCall :: rest → decode (nextSelector s.tx.phase) = .ok i → step s = exec i (s.begin rest)) ∧
    (∀ len, s.input = serializeCall len :: rest → decode (.serialize len) = .ok i →
      step s = exec i (s.begin rest)) ∧
    (s.input = resetCall :: rest → decode .reset = .ok i → step s = exec i (s.begin rest)) ∧
    (∀ bytes, s.input = .message bytes :: rest → decode (.payload bytes) = .ok i →
      step s = exec i (s.begin rest))

/-- R83, R163, U12: a message call builds the command it carries, whatever the length of the command's data, parses a payload
that leads with a response's identifier, and ignores a payload of no known identifier or of none. -/
def Obligations.MessageCallRunsItsOperation : Prop :=
  ∀ (s : State) (rest : List Action),
    (∀ m : AtCommand, s.input = .message m.layout :: rest → step s = exec (.atCommand m) (s.begin rest)) ∧
    (∀ m : TransmitRequest, s.input = .message m.layout :: rest →
      step s = exec (.transmitRequest m) (s.begin rest)) ∧
    (∀ buffer : List Byte, s.input = .message buffer :: rest → buffer.head? = some 0x88 →
      step s = exec (.atCommandResponse buffer) (s.begin rest)) ∧
    (∀ buffer : List Byte, s.input = .message buffer :: rest → buffer.head? = some 0x90 →
      step s = exec (.zigbeeReceivePacket buffer) (s.begin rest)) ∧
    (∀ buffer : List Byte, s.input = .message buffer :: rest →
      (∀ id, buffer.head? = some id → id ≠ 0x08 ∧ id ≠ 0x10 ∧ id ≠ 0x88 ∧ id ≠ 0x90) →
      step s = .next { s with out := { Outputs.quiet with result := some .ignored }, input := rest })

/-- R41, R194: with nothing called, or with no strobe high, the step ends with both units as they were. -/
def Obligations.StepWithoutCallKeepsUnits : Prop :=
  (∀ s : State, s.input = [] → step s = .next { s with out := Outputs.quiet }) ∧
  (∀ (s : State) (rest : List Action),
    s.input = .strobe { reset := false, push := none, start := none, next := false } :: rest →
    step s = .next { s with out := Outputs.quiet, input := rest })

/-- R188: `reset` overrides everything; `serialize` overrides `next`; a `push` and a serializer operation in one step
both take place. -/
def Obligations.SimultaneousStrobes : Prop :=
  (∀ (s : State) (p : Strobes) (rest : List Action), s.input = .strobe p :: rest → p.reset = true →
    step s = exec .reset (s.begin rest)) ∧
  (∀ (s : State) (push : Option Byte) (len : Half) (rest : List Action),
    step { s with input := .strobe { reset := false, push := push, start := some len, next := true } :: rest }
      = step { s with input := .strobe { reset := false, push := push, start := some len, next := false } :: rest }) ∧
  (∀ (s t : State) (b : Byte) (len : Half) (i : Instr) (rest : List Action),
    s.input = .strobe { reset := false, push := some b, start := some len, next := false } :: rest →
    decode (pushSelector s.rx.state b) = .ok i → exec i (s.begin rest) = .next t →
    step s = exec (.txStart len) t) ∧
  (∀ (s t : State) (b : Byte) (i j : Instr) (rest : List Action),
    s.input = .strobe { reset := false, push := some b, start := none, next := true } :: rest →
    decode (pushSelector s.rx.state b) = .ok i → decode (nextSelector s.tx.phase) = .ok j →
    exec i (s.begin rest) = .next t → step s = exec j t)

/-- R61: what one unit does in a step depends on its own state and its own strobes alone, so any interleaving gives each
unit the behaviour of running alone. -/
def Obligations.UnitsDoNotInterfere : Prop :=
  ∀ (s s' t t' : State) (p p' : Strobes) (rest rest' : List Action),
    s.input = .strobe p :: rest → s'.input = .strobe p' :: rest' → p.reset = p'.reset →
    step s = .next t → step s' = .next t' →
    (s.rx = s'.rx → p.push = p'.push →
      t.rx = t'.rx ∧ t.out.rxStatus = t'.out.rxStatus ∧ t.out.rxFrameLen = t'.out.rxFrameLen) ∧
    (s.tx = s'.tx → p.start = p'.start → p.next = p'.next → t.tx = t'.tx ∧ t.out.txByte = t'.out.txByte)

/-! ## The receiver's operations (40_receiver.md) -/

/-- R101: RX_WAIT_DISCARD changes no state element and returns `(None, 0)`. -/
def Obligations.WaitDiscardChangesNothing : Prop :=
  ∀ (b : Byte) (s : State),
    exec (.rxWaitDiscard b) s = .next { s with out := { s.out with rxStatus := .none, rxFrameLen := 0 } }

/-- R102: RX_WAIT_SYNC moves to `ReceivingLengthMsb`, changes nothing else and returns `(None, 0)`. -/
def Obligations.WaitSyncStartsAttempt : Prop :=
  ∀ s : State,
    exec .rxWaitSync s = .next
      { s with
        rx := { s.rx with state := .receivingLengthMsb }
        out := { s.out with rxStatus := .none, rxFrameLen := 0 } }

/-- R103 with R107 and R108: RX_LEN_MSB loads `b << 8`, or rejects when that exceeds `RX_CAP`. -/
def Obligations.LengthMsbLoadsOrRejects : Prop :=
  ∀ (b : Byte) (s : State),
    (b.toNat * 256 ≤ s.rx.cap.toNat →
      exec (.rxLenMsb b) s = .next
        { s with
          rx := { s.rx with remaining := BitVec.ofNat 16 (b.toNat * 256), state := .receivingLengthLsb }
          out := { s.out with rxStatus := .none, rxFrameLen := 0 } }) ∧
    (s.rx.cap.toNat < b.toNat * 256 →
      exec (.rxLenMsb b) s = .next
        { s with
          rx := { s.rx with state := .waitingForDelimiter, cursor := 0, remaining := 0, checksum := 0 }
          out := { s.out with rxStatus := .capacityRejected, rxFrameLen := 0 } })

/-- R104 with R107 and R108: RX_LEN_LSB completes the declared length and chooses the next state, or rejects when the
length exceeds `RX_CAP`. In the state that selects it, `rx.remaining` is a multiple of 256 (I-c of R27). -/
def Obligations.LengthLsbLoadsOrRejects : Prop :=
  ∀ (b : Byte) (s : State), s.rx.remaining.toNat % 256 = 0 →
    (s.rx.remaining.toNat + b.toNat ≤ s.rx.cap.toNat →
      exec (.rxLenLsb b) s = .next
        { s with
          rx := { s.rx with
            remaining := BitVec.ofNat 16 (s.rx.remaining.toNat + b.toNat)
            state := if s.rx.remaining.toNat + b.toNat = 0 then .receivingChecksum else .receivingData }
          out := { s.out with rxStatus := .none, rxFrameLen := 0 } }) ∧
    (s.rx.cap.toNat < s.rx.remaining.toNat + b.toNat →
      exec (.rxLenLsb b) s = .next
        { s with
          rx := { s.rx with state := .waitingForDelimiter, cursor := 0, remaining := 0, checksum := 0 }
          out := { s.out with rxStatus := .capacityRejected, rxFrameLen := 0 } })

/-- R105 and R53: RX_DATA stores the byte at the cursor and at no other index, moves the counters by one, adds the byte
mod 256, and chooses the next state by the decremented counter. The premises are I-d of R27. -/
def Obligations.DataStoresOneByte : Prop :=
  ∀ (b : Byte) (s : State), s.rx.cursor.toNat < s.rx.cap.toNat → 1 ≤ s.rx.remaining.toNat →
    ∃ r : Rx,
      exec (.rxData b) s = .next { s with rx := r, out := { s.out with rxStatus := .none, rxFrameLen := 0 } } ∧
      r.read s.rx.cursor.toNat = b ∧
      (∀ a, a ≠ s.rx.cursor.toNat → r.read a = s.rx.read a) ∧
      r.cursor.toNat = s.rx.cursor.toNat + 1 ∧
      r.checksum.toNat = (s.rx.checksum.toNat + b.toNat) % 256 ∧
      r.remaining.toNat = s.rx.remaining.toNat - 1 ∧
      r.state = (if 1 < s.rx.remaining.toNat then .receivingData else .receivingChecksum) ∧
      r.cap = s.rx.cap

/-- The model's own fault (log 8): RX_DATA with the cursor at or past `RX_CAP` breaks the precondition of R53's write. -/
def Obligations.DataOutsideBufferFaults : Prop :=
  ∀ (b : Byte) (s : State), s.rx.cap.toNat ≤ s.rx.cursor.toNat → exec (.rxData b) s = .fault .rxBufOutOfRange

/-- R106 with R107: RX_CKSUM accepts exactly `0xFF - rx.checksum`, reports the cursor as length, and returns the four
registers to their reset values whichever way the comparison goes; no buffer byte changes. -/
def Obligations.CksumAcceptsOrRejects : Prop :=
  ∀ (b : Byte) (s : State),
    (b.toNat = 255 - s.rx.checksum.toNat →
      exec (.rxCksum b) s = .next
        { s with
          rx := { s.rx with state := .waitingForDelimiter, cursor := 0, remaining := 0, checksum := 0 }
          out := { s.out with rxStatus := .frameAccepted, rxFrameLen := s.rx.cursor } }) ∧
    (b.toNat ≠ 255 - s.rx.checksum.toNat →
      exec (.rxCksum b) s = .next
        { s with
          rx := { s.rx with state := .waitingForDelimiter, cursor := 0, remaining := 0, checksum := 0 }
          out := { s.out with rxStatus := .checksumRejected, rxFrameLen := 0 } })

/-! ## The receiver as a whole -/

/-- R110 and R115: from the delimiter on, an attempt with declared length `N ≤ RX_CAP` takes exactly `N + 3` more bytes,
whatever their values; each of the first `N + 3` pushes returns `(None, 0)` and leaves the receiver inside the
attempt; the last one reports by the checksum alone, and the payload stands in the buffer. -/
def Obligations.AttemptTakesDeclaredLength : Prop :=
  ∀ (s : State) (hi lo c : Byte) (data : List Byte) (rest : List Action),
    s.rx.AtReset → data.length = hi.toNat * 256 + lo.toNat → data.length ≤ s.rx.cap.toNat →
    s.input = feed ([delimiter, hi, lo] ++ data ++ [c]) ++ rest →
    (∀ k, 1 ≤ k → k ≤ data.length + 3 → ∃ t, runsTo k s t ∧
      t.out.rxStatus = .none ∧ t.out.rxFrameLen = 0 ∧ t.rx.state ≠ .waitingForDelimiter) ∧
    (∃ t, runsTo (data.length + 4) s t ∧ t.rx.AtReset ∧ t.rx.bytes data.length = data ∧ t.input = rest ∧
      (c = 0xFF - payloadSum data →
        t.out.rxStatus = .frameAccepted ∧ t.out.rxFrameLen.toNat = data.length) ∧
      (c ≠ 0xFF - payloadSum data → t.out.rxStatus = .checksumRejected ∧ t.out.rxFrameLen = 0))

/-- R108, R115 and R189: an attempt whose declared length exceeds `RX_CAP` is rejected at the high byte when that byte
alone exceeds it, else at the low byte; the receiver is then at reset and no buffer byte has changed. -/
def Obligations.OversizeAttemptIsRejected : Prop :=
  ∀ (s : State) (hi lo : Byte) (rest : List Action),
    s.rx.AtReset → s.input = feed [delimiter, hi, lo] ++ rest →
    (s.rx.cap.toNat < hi.toNat * 256 →
      ∃ t, runsTo 2 s t ∧ t.out.rxStatus = .capacityRejected ∧ t.out.rxFrameLen = 0 ∧ t.rx = s.rx) ∧
    (hi.toNat * 256 ≤ s.rx.cap.toNat → s.rx.cap.toNat < hi.toNat * 256 + lo.toNat →
      ∃ t, runsTo 3 s t ∧ t.out.rxStatus = .capacityRejected ∧ t.out.rxFrameLen = 0 ∧ t.rx = s.rx)

/-- R111, in the wider form of C3: for every payload `P` with `len(P) ≤ RX_CAP`, feeding `frame(P)` to a receiver at reset
returns `(None, 0)` for the first `len(P) + 3` pushes and `(FrameAccepted, len(P))` for the last, the frame
is `P`, and the receiver is at reset. -/
def Obligations.RoundTripOfFrame : Prop :=
  ∀ (s : State) (payload : List Byte) (rest : List Action),
    s.rx.AtReset → payload.length ≤ s.rx.cap.toNat → s.input = feed (frame payload) ++ rest →
    (∀ k, 1 ≤ k → k ≤ payload.length + 3 →
      ∃ t, runsTo k s t ∧ t.out.rxStatus = .none ∧ t.out.rxFrameLen = 0) ∧
    (∃ t, runsTo (payload.length + 4) s t ∧ t.out.rxStatus = .frameAccepted ∧
      t.out.rxFrameLen.toNat = payload.length ∧ t.rx.bytes payload.length = payload ∧
      t.acceptedFrame = some payload ∧ t.rx.AtReset)

/-- R112: flipping any one bit of a payload byte or of the checksum byte makes the last push, and no earlier one, return
`(ChecksumRejected, 0)`, and leaves the receiver at reset. -/
def Obligations.OneFlippedBitIsRejected : Prop :=
  ∀ (s : State) (payload : List Byte) (offset bit : Nat) (b : Byte) (rest : List Action),
    s.rx.AtReset → payload.length ≤ s.rx.cap.toNat → 3 ≤ offset → bit < 8 →
    (frame payload)[offset]? = some b →
    s.input = feed ((frame payload).set offset (b ^^^ BitVec.ofNat 8 (2 ^ bit))) ++ rest →
    (∀ k, 1 ≤ k → k ≤ payload.length + 3 →
      ∃ t, runsTo k s t ∧ t.out.rxStatus = .none ∧ t.out.rxFrameLen = 0) ∧
    (∃ t, runsTo (payload.length + 4) s t ∧ t.out.rxStatus = .checksumRejected ∧ t.out.rxFrameLen = 0 ∧
      t.rx.AtReset)

/-- R113: after any step that reports a completed attempt, the four registers are at their reset values, and no output of
a later `push` depends on the bytes of the buffer. -/
def Obligations.CompletedAttemptLeavesFreshReceiver : Prop :=
  (∀ s t : State, step s = .next t → t.out.rxStatus ≠ .none → t.rx.AtReset) ∧
  (∀ (s s' : State) (bytes : List Byte) (rest rest' : List Action),
    s.rx.Inv → s'.rx.Inv → s.rx.SameButBuf s'.rx →
    s.input = feed bytes ++ rest → s'.input = feed bytes ++ rest' →
    ∀ k, k ≤ bytes.length → ∃ t t', runsTo k s t ∧ runsTo k s' t' ∧ t.rx.SameButBuf t'.rx ∧
      (1 ≤ k → t.out.rxStatus = t'.out.rxStatus ∧ t.out.rxFrameLen = t'.out.rxFrameLen))

/-- R114: the receiver keeps its state through any number of steps that hold no `push` and no `reset`. -/
def Obligations.ReceiverHoldsBetweenPushes : Prop :=
  ∀ (k : Nat) (s t : State),
    (∀ a ∈ s.input.take k, a.pushes = false ∧ a.resets = false) → runsTo k s t → t.rx = s.rx

/-- R63: no byte of the buffer changes before the next `push`, nor, after an accepted frame, before the fourth. -/
def Obligations.FrameBytesSurviveThreePushes : Prop :=
  ∀ (k : Nat) (s t : State), runsTo k s t →
    (s.FrameReadInWindow k → ∀ n, t.rx.bytes n = s.rx.bytes n) ∧
    (s.out.rxStatus = .frameAccepted → s.rx.AtReset → (s.input.take k).countP Action.pushes ≤ 3 →
      ∀ n, t.rx.bytes n = s.rx.bytes n)

/-! ## The serializer (41_serializer.md) -/

/-- R130 and R140: `serialize(L)` with `L ≤ TX_CAP` latches the length, clears index and sum, goes to `TxDelimiter` from
any phase and emits nothing; with `L > TX_CAP` it has no behaviour. -/
def Obligations.SerializeStartsFreshSequence : Prop :=
  ∀ (len : Half) (s : State),
    (len.toNat ≤ s.tx.cap.toNat →
      exec (.txStart len) s = .next
        { s with
          tx := { s.tx with len := len, index := 0, sum := 0, phase := .txDelimiter }
          out := { s.out with txByte := none } }) ∧
    (s.tx.cap.toNat < len.toNat → exec (.txStart len) s = .refused .lengthExceedsTxCap)

/-- R132, R133 and R134: the delimiter, the length high byte and the length low byte, each with its next phase; an empty
payload skips `TxData`. -/
def Obligations.HeaderBytesAreEmitted : Prop :=
  ∀ s : State,
    (exec .txDelim s = .next
      { s with tx := { s.tx with phase := .txLengthMsb }, out := { s.out with txByte := some 0x7E } }) ∧
    (exec .txLenMsb s = .next
      { s with
        tx := { s.tx with phase := .txLengthLsb }
        out := { s.out with txByte := some (BitVec.ofNat 8 (s.tx.len.toNat / 256)) } }) ∧
    (exec .txLenLsb s = .next
      { s with
        tx := { s.tx with phase := if s.tx.len.toNat = 0 then .txChecksum else .txData }
        out := { s.out with txByte := some (BitVec.ofNat 8 (s.tx.len.toNat % 256)) } })

/-- R135 and R55: TX_DATA emits the payload byte at the index and folds that byte into the sum, moves the index by one, and
chooses the next phase by the new index; the payload is not written. -/
def Obligations.DataByteIsEmittedAndSummed : Prop :=
  ∀ s : State, s.tx.index.toNat < s.tx.cap.toNat →
    ∃ t : Tx,
      exec .txData s = .next
        { s with tx := t, out := { s.out with txByte := some (s.tx.read s.tx.index.toNat) } } ∧
      t.sum.toNat = (s.tx.sum.toNat + (s.tx.read s.tx.index.toNat).toNat) % 256 ∧
      t.index.toNat = s.tx.index.toNat + 1 ∧
      t.phase = (if s.tx.index.toNat + 1 < s.tx.len.toNat then .txData else .txChecksum) ∧
      t.len = s.tx.len ∧ t.cap = s.tx.cap ∧ t.draw = s.tx.draw ∧ (∀ a, t.read a = s.tx.read a) ∧
      t.payload = s.tx.payload

/-- The model's own fault (log 8): TX_DATA with the index at or past `TX_CAP` names no byte of R50's buffer. -/
def Obligations.DataByteOutsidePayloadFaults : Prop :=
  ∀ s : State, s.tx.cap.toNat ≤ s.tx.index.toNat → exec .txData s = .fault .txPayloadOutOfRange

/-- R136 and R137: the checksum byte `0xFF - tx.sum` ends the sequence and keeps length, index and sum; after it `next()`
emits nothing and changes nothing. -/
def Obligations.ChecksumByteEndsSequence : Prop :=
  ∀ s : State,
    (exec .txCksum s = .next
      { s with
        tx := { s.tx with phase := .txIdle }
        out := { s.out with txByte := some (BitVec.ofNat 8 (255 - s.tx.sum.toNat)) } }) ∧
    (exec .txIdle s = .next { s with out := { s.out with txByte := none } })

/-- R138: after `serialize(L)` the successive `next()` calls return exactly the bytes of `frame(P)`, `P` being the payload's
first `L` bytes, and then nothing, for any number of further calls. -/
def Obligations.SequenceIsTheFrame : Prop :=
  ∀ (s : State) (len : Half) (more : Nat) (rest : List Action),
    len.toNat ≤ s.tx.cap.toNat → s.input = serializeCall len :: (drain (len.toNat + 4 + more) ++ rest) →
    (∀ k, k < len.toNat + 4 →
      ∃ t, runsTo (k + 2) s t ∧ t.out.txByte = (frame (s.tx.bytes len.toNat))[k]? ∧ t.out.txByte ≠ none) ∧
    (∀ k, k < more → ∃ t, runsTo (len.toNat + 4 + k + 2) s t ∧ t.out.txByte = none ∧ t.tx.phase = .txIdle)

/-- R139: the serializer after `serialize(L)` depends on `L` and the payload buffer alone, never on how far an earlier
sequence had gone or on the earlier sum. -/
def Obligations.RestartForgetsEarlierSequence : Prop :=
  ∀ (s s' t t' : State) (len : Half),
    s.tx.payload = s'.tx.payload → s.tx.draw = s'.tx.draw → s.tx.cap = s'.tx.cap →
    exec (.txStart len) s = .next t → exec (.txStart len) s' = .next t' → t.tx = t'.tx

/-- R141 and R215: the serializer reads a payload byte only at the step that emits it. Two payloads that differ in the one
byte at `a`: from `TxData` on, the byte at `a` is emitted and summed in its new value if its turn is still to
come, every other byte as it was, and the checksum byte fits what was emitted; a byte already emitted has no
effect. The change is between two states and is no call: the model refuses that call (log 10). -/
def Obligations.ChangedPayloadByteIsEmitted : Prop :=
  ∀ (s : State) (a : Nat) (v : Byte) (rest : List Action),
    s.tx.phase = .txData → s.tx.index.toNat < s.tx.len.toNat → s.tx.len.toNat ≤ s.tx.cap.toNat →
    s.input = drain (s.tx.len.toNat - s.tx.index.toNat + 1) ++ rest →
    let changed : State := { s with tx := { s.tx with payload := Memory.write s.tx.payload a v } }
    let byte (i : Nat) : Byte := if s.tx.index.toNat + i = a then v else s.tx.read (s.tx.index.toNat + i)
    (∀ k, s.tx.index.toNat + k < s.tx.len.toNat → ∃ t, runsTo (k + 1) changed t ∧ t.out.txByte = some (byte k) ∧
      t.tx.sum = s.tx.sum + payloadSum ((List.range (k + 1)).map byte)) ∧
    (∃ t, runsTo (s.tx.len.toNat - s.tx.index.toNat + 1) changed t ∧ t.tx.phase = .txIdle ∧ t.rx = s.rx ∧
      t.out.txByte = some (0xFF
        - (s.tx.sum + payloadSum ((List.range (s.tx.len.toNat - s.tx.index.toNat)).map byte))))

/-- R215, U7: a call that would write a byte of the sequence in progress, by the owner's write or by the `build` of a command
that fits, is outside the contract and is refused by name (log 10). -/
def Obligations.WriteIntoSequenceIsRefused : Prop :=
  (∀ (s : State) (a : Half) (v : Byte) (rest : List Action), s.input = .writePayload a v :: rest →
    a.toNat < s.tx.cap.toNat → s.tx.phase ≠ .txIdle → a.toNat < s.tx.len.toNat →
    step s = .refused .payloadInUse) ∧
  (∀ (m : AtCommand) (s : State), (if m.parameter.isSome then 5 else 4) ≤ s.tx.cap.toNat →
    s.tx.phase ≠ .txIdle → s.tx.len ≠ 0 → exec (.atCommand m) s = .refused .payloadInUse) ∧
  (∀ (m : TransmitRequest) (s : State), 14 + m.payload.length ≤ s.tx.cap.toNat →
    s.tx.phase ≠ .txIdle → s.tx.len ≠ 0 → exec (.transmitRequest m) s = .refused .payloadInUse)

/-- R34, R215: no step changes a payload byte of the sequence in progress, but for the unspecified bytes after
`BufferTooSmall` (U6); and under `PayloadStable` (R229), which then holds of the next state too, none at all. -/
def Obligations.SequenceBytesAreStable : Prop :=
  ∀ s t : State, step s = .next t →
    (s.tx.phase ≠ .txIdle → t.out.result ≠ some .bufferTooSmall →
      ∀ a, a < s.tx.len.toNat → t.tx.read a = s.tx.read a) ∧
    (s.PayloadStable → t.PayloadStable ∧
      (s.tx.phase ≠ .txIdle → ∀ a, a < s.tx.len.toNat → t.tx.read a = s.tx.read a))

/-! ## Reset (70_reset_and_hazards.md) -/

/-- R210 and R197: `reset` sets every register of both units to its reset value, leaves both buffers, and returns `None`
and no byte. -/
def Obligations.ResetSetsEveryRegister : Prop :=
  ∀ s : State,
    exec .reset s = .next
      { s with
        rx := { state := .waitingForDelimiter, cursor := 0, remaining := 0, checksum := 0,
                buf := s.rx.buf, cap := s.rx.cap }
        tx := { phase := .txIdle, index := 0, sum := 0, len := 0,
                payload := s.tx.payload, cap := s.tx.cap, draw := s.tx.draw }
        out := { s.out with rxStatus := .none, rxFrameLen := 0, txByte := none } }

/-- R26 and R35: the state right after reset has both units at their reset values, for every value of the two parameters;
and `State.reset` is one of these (its parameter values are the model's choice, log 2). -/
def Obligations.ResetStateIsAtReset : Prop :=
  (∀ rxCap txCap : Half, (State.resetWith rxCap txCap).rx.AtReset ∧ (State.resetWith rxCap txCap).tx.AtReset) ∧
  State.reset.rx.AtReset ∧ State.reset.tx.AtReset

/-! ## Invariants -/

/-- The invariants of R27 and of R36, its last clause included, and the canonical form of both buffers (log 4), hold after
reset. -/
def Obligations.ResetStateMeetsInvariant : Prop :=
  ∀ rxCap txCap : Half, (State.resetWith rxCap txCap).Inv ∧ (State.resetWith rxCap txCap).tx.SumInv

/-- R27, R58, and R36 but for its last clause (that one is `StepKeepsTransmitSum`): every step, whatever the call, keeps the
invariants of both units and the canonical form of both buffers within their capacities (the form is the
model's, log 4). -/
def Obligations.StepKeepsInvariant : Prop :=
  ∀ s t : State, s.Inv → step s = .next t → t.Inv

/-- The last clause of R36: the accumulator is the sum of the payload bytes emitted so far. Every step keeps it, whatever the
call, but for a `build` that returns `BufferTooSmall`, after which the payload bytes are unspecified (U6). -/
def Obligations.StepKeepsTransmitSum : Prop :=
  ∀ s t : State, s.tx.Inv → s.tx.SumInv → step s = .next t → t.out.result ≠ some .bufferTooSmall → t.tx.SumInv

/-- R116, R142, R227: in every state that meets the invariants, every combination of strobes whose `serialize` has
`L ≤ TX_CAP` ends in a next state: no push and no `next()` faults or is refused. -/
def Obligations.BlockNeverStops : Prop :=
  ∀ (s : State) (p : Strobes) (rest : List Action),
    s.Inv → s.LenFits → s.input = .strobe p :: rest → ∃ t, step s = .next t ∧ t.Inv

/-- R25, R28, R34, R40: no step changes a parameter; a step whose call has no `push` keeps every byte of the scratch buffer;
a step whose call is neither an owner's write nor a command to be built keeps every byte of the payload buffer. Of the
operations, only RX_DATA changes the scratch buffer, only the two commands' `build` changes the payload buffer,
and none changes the calls still to come. That the commands are built into `tx.payload` is log 13. -/
def Obligations.OnlyOwnersWriteBuffers : Prop :=
  (∀ s t : State, step s = .next t →
    t.rx.cap = s.rx.cap ∧ t.tx.cap = s.tx.cap ∧ t.input = s.input.tail ∧
    ((∀ a, s.input.head? = some a → a.pushes = false) → ∀ n, t.rx.read n = s.rx.read n) ∧
    ((∀ a, s.input.head? = some a → a.writesPayload = false) → ∀ n, t.tx.read n = s.tx.read n)) ∧
  (∀ (i : Instr) (s t : State), exec i s = .next t →
    t.rx.cap = s.rx.cap ∧ t.tx.cap = s.tx.cap ∧ t.input = s.input ∧
    ((∀ b, i ≠ .rxData b) → ∀ a, t.rx.read a = s.rx.read a) ∧
    ((∀ m, i ≠ .atCommand m) → (∀ m, i ≠ .transmitRequest m) → ∀ a, t.tx.read a = s.tx.read a))

/-! ## The collaborators (42_payload_formats.md) -/

/-- R152 with R151 and R156: the AT command is built as 4 bytes, or 5 with a parameter, when they fit and no sequence
with a payload byte is in progress (R215, log 10); every byte of the buffer past them, both units' registers and the
receiver are as before; the result is the Frame's length. -/
def Obligations.AtCommandIsBuilt : Prop :=
  ∀ (m : AtCommand) (s : State),
    (m.parameter = none → 4 ≤ s.tx.cap.toNat → s.tx.phase = .txIdle ∨ s.tx.len = 0 →
      ∃ mem : Memory,
        exec (.atCommand m) s = .next
          { s with tx := { s.tx with payload := mem }, out := { s.out with result := some (.built 4) } } ∧
        Tx.bytes { s.tx with payload := mem } 4 = [0x08, m.frameId, m.name0, m.name1] ∧
        (∀ a, 4 ≤ a → Tx.read { s.tx with payload := mem } a = s.tx.read a)) ∧
    (∀ p, m.parameter = some p → 5 ≤ s.tx.cap.toNat → s.tx.phase = .txIdle ∨ s.tx.len = 0 →
      ∃ mem : Memory,
        exec (.atCommand m) s = .next
          { s with tx := { s.tx with payload := mem }, out := { s.out with result := some (.built 5) } } ∧
        Tx.bytes { s.tx with payload := mem } 5 = [0x08, m.frameId, m.name0, m.name1, p] ∧
        (∀ a, 5 ≤ a → Tx.read { s.tx with payload := mem } a = s.tx.read a))

/-- R153 with R151 and R156: the transmit request is built as its 14 fixed bytes, big-endian, and the payload, when they
fit and no sequence with a payload byte is in progress (R215, log 10); everything else is as before. -/
def Obligations.TransmitRequestIsBuilt : Prop :=
  ∀ (m : TransmitRequest) (s : State), 14 + m.payload.length ≤ s.tx.cap.toNat →
    s.tx.phase = .txIdle ∨ s.tx.len = 0 →
    ∃ mem : Memory,
      exec (.transmitRequest m) s = .next
        { s with
          tx := { s.tx with payload := mem }
          out := { s.out with result := some (.built (BitVec.ofNat 16 (14 + m.payload.length))) } } ∧
      Tx.bytes { s.tx with payload := mem } (14 + m.payload.length)
        = [0x10, m.frameId]
          ++ (List.range 8).map (fun i => BitVec.ofNat 8 (m.destination.toNat / 2 ^ (56 - 8 * i)))
          ++ [BitVec.ofNat 8 (m.networkAddress.toNat / 256), BitVec.ofNat 8 (m.networkAddress.toNat % 256),
              m.radius, optionsByte m.disableRetries m.enableEncryption m.useExtendedTimeout]
          ++ m.payload ∧
      (∀ a, 14 + m.payload.length ≤ a → Tx.read { s.tx with payload := mem } a = s.tx.read a)

/-- R151, R152, R153, R185: a command that does not fit, however long its data, returns `BufferTooSmall` and changes no
register of either unit and not the scratch buffer; of the payload buffer nothing is said (U6: its bytes are then
free values, log 5). -/
def Obligations.BufferTooSmallIsReturned : Prop :=
  (∀ (m : AtCommand) (s : State), s.tx.cap.toNat < (if m.parameter.isSome then 5 else 4) →
    ∃ (mem : Memory) (draw : Nat), exec (.atCommand m) s = .next
      { s with
        tx := { s.tx with payload := mem, draw := draw }
        out := { s.out with result := some .bufferTooSmall } }) ∧
  (∀ (m : TransmitRequest) (s : State), s.tx.cap.toNat < 14 + m.payload.length →
    ∃ (mem : Memory) (draw : Nat), exec (.transmitRequest m) s = .next
      { s with
        tx := { s.tx with payload := mem, draw := draw }
        out := { s.out with result := some .bufferTooSmall } })

/-- R154: bit 0, bit 5 and bit 6 of the options byte are the three options; every other bit is 0. -/
def Obligations.OptionsByteBits : Prop :=
  ∀ (dr ee et : Bool) (i : Nat),
    (optionsByte dr ee et).getLsbD i
      = (if i = 0 then dr else if i = 5 then ee else if i = 6 then et else false)

/-- R158, R159 and R162: what parsing an AT command response returns, by length, then identifier, then status; the block is
not touched. -/
def Obligations.AtResponseIsParsed : Prop :=
  ∀ (buffer : List Byte) (s : State),
    ∃ r : CallResult,
      exec (.atCommandResponse buffer) s = .next { s with out := { s.out with result := some r } } ∧
      (buffer.length < 5 ∨ 6 < buffer.length → r = .parseError .sizeOutOfRange) ∧
      (5 ≤ buffer.length → buffer.length ≤ 6 → buffer[0]? ≠ some 0x88 → r = .parseError .idMismatch) ∧
      (∀ c : Byte, 5 ≤ buffer.length → buffer.length ≤ 6 → buffer[0]? = some 0x88 → buffer[4]? = some c →
        4 < c.toNat → r = .parseError .invalidEnumValue) ∧
      (∀ c : Byte, 5 ≤ buffer.length → buffer.length ≤ 6 → buffer[0]? = some 0x88 → buffer[4]? = some c →
        c.toNat ≤ 4 → ∃ q : AtResponse, r = .atResponse q ∧
          buffer[1]? = some q.frameId ∧ buffer[2]? = some q.name0 ∧ buffer[3]? = some q.name1 ∧
          q.data = buffer[5]? ∧
          some q.status = [AtStatus.ok, .error, .invalidCommand, .invalidParameter, .txFailure][c.toNat]?)

/-- R160, R161 and R162: what parsing a receive packet returns, by length, then identifier; the four named flag bits alone
are decoded; the block is not touched. -/
def Obligations.ZigbeePacketIsParsed : Prop :=
  ∀ (buffer : List Byte) (s : State),
    ∃ r : CallResult,
      exec (.zigbeeReceivePacket buffer) s = .next { s with out := { s.out with result := some r } } ∧
      (buffer.length < 12 → r = .parseError .sizeOutOfRange) ∧
      (12 ≤ buffer.length → buffer[0]? ≠ some 0x90 → r = .parseError .idMismatch) ∧
      (12 ≤ buffer.length → buffer[0]? = some 0x90 → ∃ q : ZigbeePacket, r = .zigbeePacket q ∧
        (∀ i < 8, buffer[1 + i]? = some (BitVec.ofNat 8 (q.sourceAddress.toNat / 2 ^ (56 - 8 * i)))) ∧
        buffer[9]? = some (BitVec.ofNat 8 (q.networkAddress.toNat / 256)) ∧
        buffer[10]? = some (BitVec.ofNat 8 (q.networkAddress.toNat % 256)) ∧
        (∀ flags : Byte, buffer[11]? = some flags →
          q.acknowledged = flags.getLsbD 0 ∧ q.broadcast = flags.getLsbD 1 ∧
          q.encrypted = flags.getLsbD 5 ∧ q.fromEndDevice = flags.getLsbD 6) ∧
        q.payload = buffer.drop 12)

/-- R163 with R157: a consumer that takes a received payload parses it as the one variant that responds to its first byte,
and ignores it when none does or when it is empty. -/
def Obligations.ConsumerProbesBeforeParse : Prop :=
  ∀ (s : State) (len : Half) (rest : List Action),
    len.toNat ≤ s.rx.cap.toNat → s.input = .receive len :: rest →
    ((s.rx.bytes len.toNat).head? = some 0x88 →
      step s = exec (.atCommandResponse (s.rx.bytes len.toNat)) (s.begin rest)) ∧
    ((s.rx.bytes len.toNat).head? = some 0x90 →
      step s = exec (.zigbeeReceivePacket (s.rx.bytes len.toNat)) (s.begin rest)) ∧
    ((s.rx.bytes len.toNat).head? ≠ some 0x88 → (s.rx.bytes len.toNat).head? ≠ some 0x90 →
      step s = .next { s with out := { Outputs.quiet with result := some .ignored }, input := rest })

/-! ## The buffers' other agents (20_memory.md) -/

/-- R54: a consumer read below `RX_CAP` returns the byte at its index and changes nothing of the block, so a second read of
the index returns the same byte; past `RX_CAP` it has no meaning (U4). -/
def Obligations.ConsumerReadHasNoSideEffect : Prop :=
  ∀ (s : State) (a : Half) (rest : List Action), s.input = .readBuf a :: rest →
    (a.toNat < s.rx.cap.toNat →
      step s = .next
        { s with out := { Outputs.quiet with rdData := some (s.rx.read a.toNat) }, input := rest }) ∧
    (s.rx.cap.toNat ≤ a.toNat → step s = .refused .readOutsideBuf)

/-- R34, R55, R215: with no sequence in progress, or past the payload of the one in progress, the owner's write changes the one
byte it names and nothing else of either unit. MODEL'S CHOICES: R55 allows the write in `TxIdle` alone, and that
one past the sequence's payload, which U7 does not refuse, runs is log 10; that one at or past `TX_CAP`, where R50 gives
no byte, is refused is log 11. -/
def Obligations.OwnerWriteChangesOneByte : Prop :=
  ∀ (s : State) (a : Half) (v : Byte) (rest : List Action), s.input = .writePayload a v :: rest →
    (a.toNat < s.tx.cap.toNat → s.tx.phase = .txIdle ∨ s.tx.len.toNat ≤ a.toNat →
      ∃ mem : Memory,
        step s = .next { s with tx := { s.tx with payload := mem }, out := Outputs.quiet, input := rest } ∧
        (∀ b, Tx.read { s.tx with payload := mem } b = if b = a.toNat then v else s.tx.read b)) ∧
    (s.tx.cap.toNat ≤ a.toNat → step s = .refused .writeOutsidePayload)
end

