-- ==== Sys2Proof/Laws/Decode.lean ====
section
/-! SUPPORT. The fields of a selector word and of a big-endian field are what was put there. -/

namespace Sys2Proof

@[simp] theorem rxWord_byte (tag : BitVec 3) (b : Byte) : (rxWord tag b).extractLsb' 0 8 = b := by
  apply BitVec.eq_of_getLsbD_eq
  intro i hi
  simp only [rxWord, BitVec.getLsbD_extractLsb', BitVec.getLsbD_append]
  simp [hi]

@[simp] theorem rxWord_tag (tag : BitVec 3) (b : Byte) : (rxWord tag b).extractLsb' 8 3 = tag := by
  apply BitVec.eq_of_getLsbD_eq
  intro i hi
  simp only [rxWord, BitVec.getLsbD_extractLsb', BitVec.getLsbD_append]
  simp [hi]

theorem rxWord_fields (w : BitVec 11) : rxWord (w.extractLsb' 8 3) (w.extractLsb' 0 8) = w := by
  apply BitVec.eq_of_getLsbD_eq
  intro i hi
  simp only [rxWord, BitVec.getLsbD_append, BitVec.getLsbD_extractLsb']
  by_cases h : i < 8
  · simp [h]
  · simp [h, show i - 8 < 3 by omega, show 8 + (i - 8) = i by omega]

@[simp] theorem hiByte_joinHalf (hi lo : Byte) : hiByte (joinHalf hi lo) = hi := by
  apply BitVec.eq_of_getLsbD_eq
  intro i h
  simp only [hiByte, joinHalf, BitVec.getLsbD_extractLsb', BitVec.getLsbD_append]
  simp [h]

@[simp] theorem loByte_joinHalf (hi lo : Byte) : loByte (joinHalf hi lo) = lo := by
  apply BitVec.eq_of_getLsbD_eq
  intro i h
  simp only [loByte, joinHalf, BitVec.getLsbD_extractLsb', BitVec.getLsbD_append]
  simp [h]

@[simp] theorem joinHalf_bytes (v : Half) : joinHalf (hiByte v) (loByte v) = v := by
  apply BitVec.eq_of_getLsbD_eq
  intro i hi
  simp only [joinHalf, hiByte, loByte, BitVec.getLsbD_append, BitVec.getLsbD_extractLsb']
  by_cases h : i < 8
  · simp [h]
  · simp [h, show i - 8 < 8 by omega, show 8 + (i - 8) = i by omega]

theorem joinAddr_addrByte (a : Addr64) :
    joinAddr (addrByte a 0) (addrByte a 1) (addrByte a 2) (addrByte a 3) (addrByte a 4) (addrByte a 5)
      (addrByte a 6) (addrByte a 7) = a := by
  apply BitVec.eq_of_getLsbD_eq
  intro i hi
  simp only [joinAddr, addrByte, BitVec.getLsbD_append, BitVec.getLsbD_extractLsb']
  split_ifs <;> (rw [decide_eq_true (by omega), Bool.true_and]; congr 1; omega)

theorem addrByte_joinAddr (b0 b1 b2 b3 b4 b5 b6 b7 : Byte) :
    [0, 1, 2, 3, 4, 5, 6, 7].map (addrByte (joinAddr b0 b1 b2 b3 b4 b5 b6 b7))
      = [b0, b1, b2, b3, b4, b5, b6, b7] := by
  simp only [List.map_cons, List.map_nil, List.cons.injEq, and_true]
  refine ⟨?_, ?_, ?_, ?_, ?_, ?_, ?_, ?_⟩ <;>
  · apply BitVec.eq_of_getLsbD_eq
    intro i hi
    simp only [joinAddr, addrByte, BitVec.getLsbD_append, BitVec.getLsbD_extractLsb']
    split_ifs <;> first | omega | (simp only [hi, decide_true, Bool.true_and]; try (congr 1; omega))

/-- The three named bits of the options byte (R154), in the form `simp` leaves a bit. -/
@[simp] theorem optionsByte_bit0 (dr ee et : Bool) : (optionsByte dr ee et)[0] = dr := by
  cases dr <;> cases ee <;> cases et <;> decide
@[simp] theorem optionsByte_bit5 (dr ee et : Bool) : (optionsByte dr ee et)[5] = ee := by
  cases dr <;> cases ee <;> cases et <;> decide
@[simp] theorem optionsByte_bit6 (dr ee et : Bool) : (optionsByte dr ee et)[6] = et := by
  cases dr <;> cases ee <;> cases et <;> decide

end Sys2Proof
end

