-- ==== Sys2Proof/Laws/Memory.lean ====
section
/-! SUPPORT. The laws of a buffer: read after write, and that every operation keeps the canonical form. -/

namespace Sys2Proof.Machine

/-- Read after write, at every address (R53). -/
theorem Memory.find_write (m : Memory) (a b : Nat) (v : Byte) :
    Memory.find (Memory.write m a v) b = if b = a then some v else Memory.find m b := by
  induction m with
  | nil => simp [Memory.write, Memory.find]
  | cons c m ih =>
    obtain ⟨x, w⟩ := c
    simp only [Memory.write]
    split
    · simp [Memory.find]
    · split
      · rename_i h
        subst h
        by_cases hb : b = a <;> simp [Memory.find, hb]
      · rename_i hlt hne
        by_cases hb : b = x
        · subst hb
          simp [Memory.find, Ne.symm hne]
        · simp [Memory.find, hb, ih]

@[simp] theorem Memory.find_write_self (m : Memory) (a : Nat) (v : Byte) :
    Memory.find (Memory.write m a v) a = some v := by simp [Memory.find_write]

theorem Memory.find_write_ne (m : Memory) {a b : Nat} (v : Byte) (h : b ≠ a) :
    Memory.find (Memory.write m a v) b = Memory.find m b := by simp [Memory.find_write, h]

theorem Memory.risesAbove_write {m : Memory} {lo a : Nat} (v : Byte) (h : Memory.risesAbove lo m = true)
    (ha : lo < a) : Memory.risesAbove lo (Memory.write m a v) = true := by
  induction m generalizing lo with
  | nil => simp [Memory.write, Memory.risesAbove, ha]
  | cons c m ih =>
    obtain ⟨x, w⟩ := c
    simp only [Memory.risesAbove, Bool.and_eq_true, decide_eq_true_eq] at h
    simp only [Memory.write]
    split
    · simp [Memory.risesAbove, *]
    · split
      · subst_vars; simp [Memory.risesAbove, *]
      · rename_i hlt hne
        simp [Memory.risesAbove, h.1, ih h.2 (by omega)]

/-- A write keeps the canonical form. -/
theorem Memory.wf_write {m : Memory} (a : Nat) (v : Byte) (h : Memory.wf m = true) :
    Memory.wf (Memory.write m a v) = true := by
  cases m with
  | nil => simp [Memory.write, Memory.wf, Memory.risesAbove]
  | cons c m =>
    obtain ⟨x, w⟩ := c
    simp only [Memory.wf] at h
    simp only [Memory.write]
    split
    · simp [Memory.wf, Memory.risesAbove, *]
    · split
      · subst_vars; simpa [Memory.wf] using h
      · simpa [Memory.wf] using Memory.risesAbove_write v h (by omega)

/-- A write below a bound keeps every address below it. -/
theorem Memory.below_write {m : Memory} {bound a : Nat} (v : Byte) (h : Memory.below bound m = true)
    (ha : a < bound) : Memory.below bound (Memory.write m a v) = true := by
  induction m with
  | nil => simpa [Memory.write, Memory.below] using ha
  | cons c m ih =>
    obtain ⟨x, w⟩ := c
    simp only [Memory.below, List.all_cons, Bool.and_eq_true, decide_eq_true_eq] at h ih
    simp only [Memory.write]
    split
    · simp [Memory.below, List.all_cons, ha, h.1]; simpa using h.2
    · split
      · simp [Memory.below, List.all_cons, ha]; simpa using h.2
      · simp [Memory.below, List.all_cons, h.1]; simpa using ih h.2

/-- Read after a run of writes: the byte written there, or what was there. -/
theorem Memory.find_writeAll (m : Memory) (a b : Nat) (vs : List Byte) :
    Memory.find (Memory.writeAll m a vs) b
      = if h : a ≤ b ∧ b < a + vs.length then some (vs[b - a]'(by omega)) else Memory.find m b := by
  induction vs generalizing m a with
  | nil =>
    have h : ¬ (a ≤ b ∧ b < a + ([] : List Byte).length) := by simp
    rw [dif_neg h, Memory.writeAll]
  | cons v vs ih =>
    rw [Memory.writeAll, ih]
    by_cases hb : b = a
    · subst hb
      simp
    · by_cases h : a + 1 ≤ b ∧ b < a + 1 + vs.length
      · have h' : a ≤ b ∧ b < a + (v :: vs).length := by simp; omega
        rw [dif_pos h, dif_pos h']
        have : b - a = b - (a + 1) + 1 := by omega
        simp [this]
      · have h' : ¬ (a ≤ b ∧ b < a + (v :: vs).length) := by simp; omega
        rw [dif_neg h, dif_neg h', Memory.find_write_ne m v hb]

/-- A run of writes keeps the canonical form. -/
theorem Memory.wf_writeAll {m : Memory} (a : Nat) (vs : List Byte) (h : Memory.wf m = true) :
    Memory.wf (Memory.writeAll m a vs) = true := by
  induction vs generalizing m a with
  | nil => exact h
  | cons v vs ih => exact ih (a + 1) (Memory.wf_write a v h)

/-- A run of writes below a bound keeps every address below it. -/
theorem Memory.below_writeAll {m : Memory} {bound : Nat} (a : Nat) (vs : List Byte)
    (h : Memory.below bound m = true) (ha : a + vs.length ≤ bound) :
    Memory.below bound (Memory.writeAll m a vs) = true := by
  induction vs generalizing m a with
  | nil => exact h
  | cons v vs ih =>
    have : a + 1 + vs.length ≤ bound := by simp at ha; omega
    exact ih (a + 1) (Memory.below_write v h (by omega)) this

/-- A write changes the one byte of the scratch buffer (R53). -/
theorem Rx.read_write (r : Rx) (a b : Nat) (v : Byte) :
    Rx.read { r with buf := Memory.write r.buf a v } b = if b = a then v else r.read b := by
  simp only [Rx.read, Memory.find_write]
  split <;> rfl

/-- A write changes the one byte of the payload buffer. -/
theorem Tx.read_write (t : Tx) (a b : Nat) (v : Byte) :
    Tx.read { t with payload := Memory.write t.payload a v } b = if b = a then v else t.read b := by
  simp only [Tx.read, Memory.find_write]
  split <;> rfl

/-- A read sees the buffer and nothing else of the receiver. -/
theorem Rx.read_congr {r r' : Rx} (h : r.buf = r'.buf) (a : Nat) : r.read a = r'.read a := by
  simp [Rx.read, h]

theorem Rx.bytes_congr {r r' : Rx} (h : r.buf = r'.buf) (n : Nat) : r.bytes n = r'.bytes n :=
  List.map_congr_left fun a _ => Rx.read_congr h a

/-- A read sees the payload buffer and its draw count and nothing else of the serializer. -/
theorem Tx.read_congr {t t' : Tx} (h : t.payload = t'.payload) (hd : t.draw = t'.draw) (a : Nat) :
    t.read a = t'.read a := by
  simp [Tx.read, h, hd]

theorem Tx.bytes_congr {t t' : Tx} (h : t.payload = t'.payload) (hd : t.draw = t'.draw) (n : Nat) :
    t.bytes n = t'.bytes n :=
  List.map_congr_left fun a _ => Tx.read_congr h hd a

/-- The bytes below an index do not see a write at it or above it. -/
theorem Rx.bytes_write_ge (r : Rx) {a n : Nat} (v : Byte) (h : n ≤ a) :
    Rx.bytes { r with buf := Memory.write r.buf a v } n = r.bytes n := by
  simp only [Rx.bytes]
  refine List.map_congr_left fun b hb => ?_
  have : b ≠ a := by have := List.mem_range.mp hb; omega
  simp [Rx.read_write, this]

/-- One byte more. -/
theorem Rx.bytes_succ (r : Rx) (n : Nat) : r.bytes (n + 1) = r.bytes n ++ [r.read n] := by
  simp [Rx.bytes, List.range_succ]

theorem Tx.bytes_succ (t : Tx) (n : Nat) : t.bytes (n + 1) = t.bytes n ++ [t.read n] := by
  simp [Tx.bytes, List.range_succ]

@[simp] theorem Rx.bytes_length (r : Rx) (n : Nat) : (r.bytes n).length = n := by simp [Rx.bytes]
@[simp] theorem Tx.bytes_length (t : Tx) (n : Nat) : (t.bytes n).length = n := by simp [Tx.bytes]

end Sys2Proof.Machine
end

