-- ==== Sys2Proof/Laws/State.lean ====
section
/-! SUPPORT. What each update of the state leaves in each field, by `rfl`, so that no later proof unfolds a
record update. -/

namespace Sys2Proof.Machine

@[simp] theorem State.pushed_rx (s : State) (r : Rx) (c : RxStatus) (n : Half) : (s.pushed r c n).rx = r := rfl
@[simp] theorem State.pushed_tx (s : State) (r : Rx) (c : RxStatus) (n : Half) : (s.pushed r c n).tx = s.tx := rfl
@[simp] theorem State.pushed_input (s : State) (r : Rx) (c : RxStatus) (n : Half) :
    (s.pushed r c n).input = s.input := rfl
@[simp] theorem State.pushed_rxStatus (s : State) (r : Rx) (c : RxStatus) (n : Half) :
    (s.pushed r c n).out.rxStatus = c := rfl
@[simp] theorem State.pushed_rxFrameLen (s : State) (r : Rx) (c : RxStatus) (n : Half) :
    (s.pushed r c n).out.rxFrameLen = n := rfl
@[simp] theorem State.pushed_rdData (s : State) (r : Rx) (c : RxStatus) (n : Half) :
    (s.pushed r c n).out.rdData = s.out.rdData := rfl
@[simp] theorem State.pushed_txByte (s : State) (r : Rx) (c : RxStatus) (n : Half) :
    (s.pushed r c n).out.txByte = s.out.txByte := rfl
@[simp] theorem State.pushed_result (s : State) (r : Rx) (c : RxStatus) (n : Half) :
    (s.pushed r c n).out.result = s.out.result := rfl

@[simp] theorem State.emitted_rx (s : State) (t : Tx) (v : Option Byte) : (s.emitted t v).rx = s.rx := rfl
@[simp] theorem State.emitted_tx (s : State) (t : Tx) (v : Option Byte) : (s.emitted t v).tx = t := rfl
@[simp] theorem State.emitted_input (s : State) (t : Tx) (v : Option Byte) : (s.emitted t v).input = s.input := rfl
@[simp] theorem State.emitted_rxStatus (s : State) (t : Tx) (v : Option Byte) :
    (s.emitted t v).out.rxStatus = s.out.rxStatus := rfl
@[simp] theorem State.emitted_rxFrameLen (s : State) (t : Tx) (v : Option Byte) :
    (s.emitted t v).out.rxFrameLen = s.out.rxFrameLen := rfl
@[simp] theorem State.emitted_rdData (s : State) (t : Tx) (v : Option Byte) :
    (s.emitted t v).out.rdData = s.out.rdData := rfl
@[simp] theorem State.emitted_txByte (s : State) (t : Tx) (v : Option Byte) : (s.emitted t v).out.txByte = v := rfl
@[simp] theorem State.emitted_result (s : State) (t : Tx) (v : Option Byte) :
    (s.emitted t v).out.result = s.out.result := rfl

@[simp] theorem State.returned_rx (s : State) (r : CallResult) : (s.returned r).rx = s.rx := rfl
@[simp] theorem State.returned_tx (s : State) (r : CallResult) : (s.returned r).tx = s.tx := rfl
@[simp] theorem State.returned_input (s : State) (r : CallResult) : (s.returned r).input = s.input := rfl
@[simp] theorem State.returned_result (s : State) (r : CallResult) : (s.returned r).out.result = some r := rfl
@[simp] theorem State.returned_rxStatus (s : State) (r : CallResult) :
    (s.returned r).out.rxStatus = s.out.rxStatus := rfl
@[simp] theorem State.returned_rxFrameLen (s : State) (r : CallResult) :
    (s.returned r).out.rxFrameLen = s.out.rxFrameLen := rfl
@[simp] theorem State.returned_rdData (s : State) (r : CallResult) : (s.returned r).out.rdData = s.out.rdData := rfl
@[simp] theorem State.returned_txByte (s : State) (r : CallResult) : (s.returned r).out.txByte = s.out.txByte := rfl

@[simp] theorem State.begin_rx (s : State) (rest : List Action) : (s.begin rest).rx = s.rx := rfl
@[simp] theorem State.begin_tx (s : State) (rest : List Action) : (s.begin rest).tx = s.tx := rfl
@[simp] theorem State.begin_input (s : State) (rest : List Action) : (s.begin rest).input = rest := rfl
@[simp] theorem State.begin_out (s : State) (rest : List Action) : (s.begin rest).out = .quiet := rfl

@[simp] theorem Outputs.quiet_rxStatus : Outputs.quiet.rxStatus = .none := rfl
@[simp] theorem Outputs.quiet_rxFrameLen : Outputs.quiet.rxFrameLen = 0 := rfl
@[simp] theorem Outputs.quiet_rdData : Outputs.quiet.rdData = none := rfl
@[simp] theorem Outputs.quiet_txByte : Outputs.quiet.txByte = none := rfl
@[simp] theorem Outputs.quiet_result : Outputs.quiet.result = none := rfl

@[simp] theorem Rx.resetCounters_state (r : Rx) : r.resetCounters.state = .waitingForDelimiter := rfl
@[simp] theorem Rx.resetCounters_cursor (r : Rx) : r.resetCounters.cursor = 0 := rfl
@[simp] theorem Rx.resetCounters_remaining (r : Rx) : r.resetCounters.remaining = 0 := rfl
@[simp] theorem Rx.resetCounters_checksum (r : Rx) : r.resetCounters.checksum = 0 := rfl
@[simp] theorem Rx.resetCounters_buf (r : Rx) : r.resetCounters.buf = r.buf := rfl
@[simp] theorem Rx.resetCounters_cap (r : Rx) : r.resetCounters.cap = r.cap := rfl

@[simp] theorem Tx.resetRegisters_phase (t : Tx) : t.resetRegisters.phase = .txIdle := rfl
@[simp] theorem Tx.resetRegisters_index (t : Tx) : t.resetRegisters.index = 0 := rfl
@[simp] theorem Tx.resetRegisters_sum (t : Tx) : t.resetRegisters.sum = 0 := rfl
@[simp] theorem Tx.resetRegisters_len (t : Tx) : t.resetRegisters.len = 0 := rfl
@[simp] theorem Tx.resetRegisters_payload (t : Tx) : t.resetRegisters.payload = t.payload := rfl
@[simp] theorem Tx.resetRegisters_cap (t : Tx) : t.resetRegisters.cap = t.cap := rfl
@[simp] theorem Tx.resetRegisters_draw (t : Tx) : t.resetRegisters.draw = t.draw := rfl

/-- All that a rejection does (R108, R189): the four registers return to their reset values, the buffer and the
serializer stay, and the condition goes out with length 0. -/
theorem State.reject_spec (s : State) (c : RxStatus) :
    (s.reject c).rx = s.rx.resetCounters ∧ (s.reject c).tx = s.tx ∧ (s.reject c).input = s.input
      ∧ (s.reject c).out = { s.out with rxStatus := c, rxFrameLen := 0 } :=
  ⟨rfl, rfl, rfl, rfl⟩

@[simp] theorem State.reject_rx (s : State) (c : RxStatus) : (s.reject c).rx = s.rx.resetCounters := rfl
@[simp] theorem State.reject_tx (s : State) (c : RxStatus) : (s.reject c).tx = s.tx := rfl
@[simp] theorem State.reject_input (s : State) (c : RxStatus) : (s.reject c).input = s.input := rfl
@[simp] theorem State.reject_rxStatus (s : State) (c : RxStatus) : (s.reject c).out.rxStatus = c := rfl
@[simp] theorem State.reject_rxFrameLen (s : State) (c : RxStatus) : (s.reject c).out.rxFrameLen = 0 := rfl

end Sys2Proof.Machine
end

