-- ==== Sys2Proof/Laws/Ops.lean ====
section
/-! SUPPORT. One lemma per shared operation: its value in the arithmetic of R9, or all that it can do. -/

namespace Sys2Proof.Machine

theorem hiByte_toNat (v : Half) : (hiByte v).toNat = v.toNat / 256 := by
  have := v.isLt
  simp [hiByte, Nat.shiftRight_eq_div_pow]
  omega

theorem loByte_toNat (v : Half) : (loByte v).toNat = v.toNat % 256 := by
  simp [loByte]

theorem lengthHigh_toNat (b : Byte) : (lengthHigh b).toNat = b.toNat * 256 := by
  have := b.isLt
  simp [lengthHigh, zext16, Nat.shiftLeft_eq]
  omega

theorem lengthWithLow_toNat (remaining : Half) (b : Byte) :
    (lengthWithLow remaining b).toNat = (remaining.toNat + b.toNat) % 65536 := by
  simp [lengthWithLow, zext16]

theorem addChecksum_toNat (sum b : Byte) : (addChecksum sum b).toNat = (sum.toNat + b.toNat) % 256 := by
  simp [addChecksum]

theorem checksumByte_toNat (sum : Byte) : (checksumByte sum).toNat = 255 - sum.toNat := by
  have := sum.isLt
  simp [checksumByte, BitVec.toNat_sub]
  omega

theorem checksumMatches_iff (sum b : Byte) : checksumMatches sum b = true ↔ b.toNat = 255 - sum.toNat := by
  rw [checksumMatches, decide_eq_true_eq, ← checksumByte_toNat]
  exact ⟨fun h => by rw [h], BitVec.eq_of_toNat_eq⟩

theorem exceedsCap_iff (n cap : Half) : exceedsCap n cap = true ↔ cap.toNat < n.toNat := by
  simp [exceedsCap, BitVec.lt_def]

theorem AtCommand.layout_length (m : AtCommand) : m.layout.length = atCommandRequired m := by
  cases h : m.parameter <;> simp [AtCommand.layout, atCommandRequired, h]

theorem TransmitRequest.layout_length (m : TransmitRequest) : m.layout.length = transmitRequestRequired m := by
  simp [TransmitRequest.layout, transmitRequestRequired]; omega

/-! `build` (R151, R156): its three outcomes, each with its condition, and all that it can do when it goes on. -/

theorem State.build_tooSmall {s : State} {required : Nat} (layout : List Byte) (h : s.tx.cap.toNat < required) :
    s.build required layout =
      .next (({ s with tx := { s.tx with payload := [], draw := s.tx.draw + 1 } }).returned .bufferTooSmall) :=
  if_pos h

theorem State.build_inUse {s : State} {required : Nat} (layout : List Byte) (h : required ≤ s.tx.cap.toNat)
    (hs : s.tx.sends 0 = true) : s.build required layout = .refused .payloadInUse := by
  rw [State.build, if_neg (by omega), if_pos hs]

theorem State.build_fits {s : State} {required : Nat} (layout : List Byte) (h : required ≤ s.tx.cap.toNat)
    (hs : s.tx.sends 0 = false) :
    s.build required layout =
      .next (({ s with tx := { s.tx with payload := Memory.writeAll s.tx.payload 0 layout } }).returned
        (.built (BitVec.ofNat 16 required))) := by
  rw [State.build, if_neg (by omega), hs]
  rfl

theorem State.build_next {s t : State} {required : Nat} {layout : List Byte} (h : s.build required layout = .next t) :
    (s.tx.cap.toNat < required ∧
      t = ({ s with tx := { s.tx with payload := [], draw := s.tx.draw + 1 } }).returned .bufferTooSmall) ∨
    (required ≤ s.tx.cap.toNat ∧ s.tx.sends 0 = false ∧
      t = ({ s with tx := { s.tx with payload := Memory.writeAll s.tx.payload 0 layout } }).returned
        (.built (BitVec.ofNat 16 required))) := by
  unfold State.build at h
  split at h
  · rename_i hc
    exact .inl ⟨hc, (Host.Outcome.next.inj h).symm⟩
  · rename_i hc
    split at h
    · cases h
    · rename_i hs
      exact .inr ⟨by omega, by simpa using hs, (Host.Outcome.next.inj h).symm⟩

/-- No byte belongs to a sequence exactly when there is none, or when the byte lies past its payload (R215). -/
theorem Tx.sends_eq_false (t : Tx) (a : Nat) : t.sends a = false ↔ t.phase = .txIdle ∨ t.len.toNat ≤ a := by
  simp only [Tx.sends, Bool.and_eq_false_iff, decide_eq_false_iff_not, not_not, Nat.not_lt]

theorem Tx.sends_eq_true (t : Tx) (a : Nat) : t.sends a = true ↔ t.phase ≠ .txIdle ∧ a < t.len.toNat := by
  simp [Tx.sends]

end Sys2Proof.Machine
end

