-- ==== Sys2Proof/Laws/PerInstr.lean ====
section
/-! SUPPORT. Per instruction, as syntax: the selector the encoder writes for a well-formed operation is one its
row of opcode_table.json selects, `(selector AND mask) == match` (R86). -/

namespace Sys2Proof.Laws

/-- The encoder's selector has the row's format and matches the row. -/
def TableRow.Statement (i : Instr) : Prop :=
  i.wf = true → (encode i).format = i.row.1 ∧ (encode i).word &&& i.row.2.2 = i.row.2.1

/-- The mask 0x700 keeps the tag and drops the byte. -/
theorem rxWord_masked (tag : BitVec 3) (b : Byte) : (rxWord tag b).toNat &&& 0x700 = (rxWord tag 0).toNat := by
  have h : rxWord tag b &&& 0x700#11 = rxWord tag 0 := by
    apply BitVec.eq_of_getLsbD_eq
    intro i hi
    simp only [rxWord, BitVec.getLsbD_and, BitVec.getLsbD_append]
    by_cases h8 : i < 8
    · have : (0x700#11).getLsbD i = false := by interval_cases i <;> decide
      simp [h8, this]
    · have : (0x700#11).getLsbD i = true := by interval_cases i <;> decide
      simp [h8, this]
  rw [← h]; rfl

/-- A payload that leads with an identifier has it as selector word. -/
theorem payload_word {id : Byte} {buffer : List Byte} (h : payloadLedBy id buffer = true) :
    (Selector.payload buffer).word = id.toNat := by
  cases buffer with
  | nil => simp [payloadLedBy] at h
  | cons b _ =>
    simp only [payloadLedBy, List.head?_cons, decide_eq_true_eq, Option.some.injEq] at h
    simp [Selector.word, h]

theorem TableRow.rxWaitDiscard (b : Byte) : TableRow.Statement (.rxWaitDiscard b) := fun _ => ⟨rfl, rxWord_masked 0 b⟩
theorem TableRow.rxWaitSync : TableRow.Statement .rxWaitSync := fun _ => ⟨rfl, by decide⟩
theorem TableRow.rxLenMsb (b : Byte) : TableRow.Statement (.rxLenMsb b) := fun _ => ⟨rfl, rxWord_masked 1 b⟩
theorem TableRow.rxLenLsb (b : Byte) : TableRow.Statement (.rxLenLsb b) := fun _ => ⟨rfl, rxWord_masked 2 b⟩
theorem TableRow.rxData (b : Byte) : TableRow.Statement (.rxData b) := fun _ => ⟨rfl, rxWord_masked 3 b⟩
theorem TableRow.rxCksum (b : Byte) : TableRow.Statement (.rxCksum b) := fun _ => ⟨rfl, rxWord_masked 4 b⟩
theorem TableRow.txIdle : TableRow.Statement .txIdle := fun _ => ⟨rfl, by decide⟩
theorem TableRow.txDelim : TableRow.Statement .txDelim := fun _ => ⟨rfl, by decide⟩
theorem TableRow.txLenMsb : TableRow.Statement .txLenMsb := fun _ => ⟨rfl, by decide⟩
theorem TableRow.txLenLsb : TableRow.Statement .txLenLsb := fun _ => ⟨rfl, by decide⟩
theorem TableRow.txData : TableRow.Statement .txData := fun _ => ⟨rfl, by decide⟩
theorem TableRow.txCksum : TableRow.Statement .txCksum := fun _ => ⟨rfl, by decide⟩
theorem TableRow.txStart (len : Half) : TableRow.Statement (.txStart len) := fun _ => ⟨rfl, Nat.and_zero _⟩
theorem TableRow.reset : TableRow.Statement .reset := fun _ => ⟨rfl, by decide⟩
theorem TableRow.atCommand (m : AtCommand) : TableRow.Statement (.atCommand m) :=
  fun _ => ⟨rfl, by simp [encode, AtCommand.layout, Selector.word, Instr.row, idAtCommand]⟩
theorem TableRow.transmitRequest (m : TransmitRequest) : TableRow.Statement (.transmitRequest m) :=
  fun _ => ⟨rfl, by simp [encode, TransmitRequest.layout, Selector.word, Instr.row, idTransmitRequest]⟩
theorem TableRow.atCommandResponse (buffer : List Byte) : TableRow.Statement (.atCommandResponse buffer) :=
  fun h => ⟨rfl, by rw [show (encode (.atCommandResponse buffer)).word = _ from payload_word h]; simp [Instr.row]⟩
theorem TableRow.zigbeeReceivePacket (buffer : List Byte) : TableRow.Statement (.zigbeeReceivePacket buffer) :=
  fun h => ⟨rfl, by rw [show (encode (.zigbeeReceivePacket buffer)).word = _ from payload_word h]; simp [Instr.row]⟩

end Sys2Proof.Laws
end

