-- ==== Sys2Proof/Laws/Step.lean ====
section
/-! SUPPORT. What a step can do, said once: the operations it runs, and the calls that reach no unit. -/

namespace Sys2Proof.Machine

/-- One selected operation is run as `exec` says. -/
theorem runSelectors_one {sel : Selector} {i : Instr} (h : decode sel = .ok i) (s : State) :
    runSelectors [sel] s = exec i s := by
  simp only [runSelectors, h]
  cases exec i s <;> rfl

/-- The first selected operation goes on, and the rest run from there. -/
theorem runSelectors_cons {sel : Selector} {i : Instr} {s t : State} (rest : List Selector)
    (h : decode sel = .ok i) (he : exec i s = .next t) : runSelectors (sel :: rest) s = runSelectors rest t := by
  simp only [runSelectors, h, he]

/-- If a list of selected operations ends in a next state, the first decoded and went on, and the rest ended
there. -/
theorem runSelectors_cons_next {sel : Selector} {rest : List Selector} {s t : State}
    (h : runSelectors (sel :: rest) s = .next t) :
    ∃ i u, decode sel = .ok i ∧ exec i s = .next u ∧ runSelectors rest u = .next t := by
  simp only [runSelectors] at h
  split at h
  · cases h
  · rename_i i hi
    split at h
    · rename_i u hu
      exact ⟨i, u, hi, hu, h⟩
    · cases h
    · cases h

/-- A step takes the first pending call. -/
theorem step_cons {s : State} {a : Action} {rest : List Action} (h : s.input = a :: rest) :
    step s = perform a (s.begin rest) := by simp [step, h]

/-- What no operation changes: the parameters and the pending calls. -/
theorem exec_keeps_params {i : Instr} {s t : State} (h : exec i s = .next t) :
    t.rx.cap = s.rx.cap ∧ t.tx.cap = s.tx.cap ∧ t.input = s.input := by
  cases i <;>
    simp only [exec, execRxWaitDiscard, execRxWaitSync, execRxLenMsb, execRxLenLsb, execRxData, execRxCksum,
      execTxIdle, execTxDelim, execTxLenMsb, execTxLenLsb, execTxData, execTxCksum, execTxStart, execReset,
      execAtCommand, execTransmitRequest, execAtCommandResponse, execZigbeeReceivePacket] at h <;>
    (try obtain ⟨-, rfl⟩ | ⟨-, -, rfl⟩ := State.build_next h) <;> (try split at h) <;> (try cases h) <;>
    exact ⟨rfl, rfl, rfl⟩

/-- No run of operations changes the parameters or the pending calls. -/
theorem runSelectors_keeps_params {sels : List Selector} {s t : State} (h : runSelectors sels s = .next t) :
    t.rx.cap = s.rx.cap ∧ t.tx.cap = s.tx.cap ∧ t.input = s.input := by
  induction sels generalizing s with
  | nil => cases h; exact ⟨rfl, rfl, rfl⟩
  | cons sel rest ih =>
    obtain ⟨i, u, -, hu, hr⟩ := runSelectors_cons_next h
    obtain ⟨h1, h2, h3⟩ := exec_keeps_params hu
    obtain ⟨g1, g2, g3⟩ := ih hr
    exact ⟨g1.trans h1, g2.trans h2, g3.trans h3⟩

/-- All that a message call can do: it runs the operation that its bytes select, or ignores them. -/
theorem callMessage_next {bytes : List Byte} {s t : State} (h : callMessage bytes s = .next t) :
    (∃ i, decode (.payload bytes) = .ok i ∧ exec i s = .next t) ∨
    ((∃ e, decode (.payload bytes) = .error e) ∧ t = s.returned .ignored) := by
  unfold callMessage at h
  split at h
  · rename_i i hd
    exact .inl ⟨i, hd, h⟩
  · rename_i e hd
    exact .inr ⟨⟨e, hd⟩, (Host.Outcome.next.inj h).symm⟩

theorem callMessage_keeps_params {bytes : List Byte} {s t : State} (h : callMessage bytes s = .next t) :
    t.rx.cap = s.rx.cap ∧ t.tx.cap = s.tx.cap ∧ t.input = s.input := by
  obtain ⟨i, -, h⟩ | ⟨-, rfl⟩ := callMessage_next h
  · exact exec_keeps_params h
  · exact ⟨rfl, rfl, rfl⟩

/-- All that the owner's write can do when it goes on (R55, R215). -/
theorem ownerWrite_next {a : Half} {v : Byte} {s t : State} (h : ownerWrite a v s = .next t) :
    a < s.tx.cap ∧ s.tx.sends a.toNat = false ∧
      t = { s with tx := { s.tx with payload := Memory.write s.tx.payload a.toNat v } } := by
  unfold ownerWrite at h
  split at h
  · rename_i hc
    split at h
    · cases h
    · rename_i hs
      exact ⟨hc, by simpa using hs, (Host.Outcome.next.inj h).symm⟩
  · cases h

/-- What no call of the outside changes: the parameters and the calls that are still pending. -/
theorem perform_keeps_params {a : Action} {s t : State} (h : perform a s = .next t) :
    t.rx.cap = s.rx.cap ∧ t.tx.cap = s.tx.cap ∧ t.input = s.input := by
  cases a with
  | strobe p => exact runSelectors_keeps_params h
  | readBuf i => simp only [perform, consumerRead] at h; split at h <;> cases h; exact ⟨rfl, rfl, rfl⟩
  | writePayload i v => obtain ⟨-, -, rfl⟩ := ownerWrite_next h; exact ⟨rfl, rfl, rfl⟩
  | message bytes => exact callMessage_keeps_params h
  | receive len =>
    simp only [perform, consumerReceive] at h
    split at h
    · cases h
    split at h
    · exact exec_keeps_params h
    · cases h; exact ⟨rfl, rfl, rfl⟩
  | parseAs k len =>
    simp only [perform, consumerParse] at h
    split at h
    · cases h
    · exact exec_keeps_params h

/-- A step takes one call off and changes neither parameter. -/
theorem step_keeps_params {s t : State} (h : step s = .next t) :
    t.rx.cap = s.rx.cap ∧ t.tx.cap = s.tx.cap ∧ t.input = s.input.tail := by
  cases hi : s.input with
  | nil => simp only [step, hi] at h; cases h; exact ⟨rfl, rfl, rfl⟩
  | cons a rest => rw [step_cons hi] at h; exact perform_keeps_params h

@[simp] theorem runsTo_zero (s t : State) : runsTo 0 s t ↔ s = t := by
  exact ⟨fun h => Host.Outcome.next.inj h, fun h => by rw [h]; rfl⟩

/-- A run of `k + 1` steps is one step and a run of `k`. -/
theorem runsTo_succ (k : Nat) (s t : State) :
    runsTo (k + 1) s t ↔ ∃ u, step s = .next u ∧ runsTo k u t := by
  constructor
  · intro h
    simp only [runsTo, Host.Core.run] at h
    split at h
    · rename_i u hu
      exact ⟨u, hu, h⟩
    · cases h
    · cases h
  · rintro ⟨u, hu, h⟩
    have hu' : Sys2Proof.core.step s = .next u := hu
    simp only [runsTo, Host.Core.run, hu']
    exact h

theorem runsTo_one (s t : State) : runsTo 1 s t ↔ step s = .next t := by
  rw [runsTo_succ 0]
  constructor
  · rintro ⟨u, h, h2⟩
    rw [runsTo_zero] at h2
    exact h2 ▸ h
  · exact fun h => ⟨t, h, (runsTo_zero _ _).2 rfl⟩

/-- Runs compose. -/
theorem runsTo_add (j k : Nat) (s t : State) : runsTo (j + k) s t ↔ ∃ u, runsTo j s u ∧ runsTo k u t := by
  induction j generalizing s with
  | zero => simp
  | succ j ih =>
    rw [show j + 1 + k = (j + k) + 1 by omega]
    simp only [runsTo_succ, ih]
    constructor
    · rintro ⟨a, h1, b, h2, h3⟩
      exact ⟨b, ⟨a, h1, h2⟩, h3⟩
    · rintro ⟨b, ⟨a, h1, h2⟩, h3⟩
      exact ⟨a, h1, b, h2, h3⟩

end Sys2Proof.Machine
end

