-- ==== Sys2Proof/Laws/Wire.lean ====
section
/-! SUPPORT. The checksum of a payload (R74) and the shape of a frame (R70, R75). -/

namespace Sys2Proof.Machine

@[simp] theorem payloadSum_nil : payloadSum [] = 0 := rfl

/-- Folding one byte more into the sum is the wrapping 8-bit addition (R24, R32). -/
theorem payloadSum_snoc (payload : List Byte) (b : Byte) :
    payloadSum (payload ++ [b]) = addChecksum (payloadSum payload) b := by
  apply BitVec.eq_of_toNat_eq
  simp [payloadSum, addChecksum, Nat.add_mod]

theorem payloadSum_cons (b : Byte) (payload : List Byte) : payloadSum (b :: payload) = b + payloadSum payload := by
  apply BitVec.eq_of_toNat_eq
  simp [payloadSum]

theorem payloadSum_append (p q : List Byte) : payloadSum (p ++ q) = payloadSum p + payloadSum q := by
  induction p with
  | nil => simp
  | cons b p ih => rw [List.cons_append, payloadSum_cons, payloadSum_cons, ih, BitVec.add_assoc]

/-- Total length = payload length + 4 (R75). -/
@[simp] theorem frame_length (payload : List Byte) : (frame payload).length = payload.length + 4 := by
  simp [frame]

@[simp] theorem feed_nil : feed [] = [] := rfl
@[simp] theorem feed_cons (b : Byte) (bytes : List Byte) : feed (b :: bytes) = pushCall b :: feed bytes := rfl
@[simp] theorem feed_append (p q : List Byte) : feed (p ++ q) = feed p ++ feed q := by simp [feed]
@[simp] theorem feed_length (p : List Byte) : (feed p).length = p.length := by simp [feed]

end Sys2Proof.Machine
end

