-- ==== Sys2Proof/Laws/Units.lean ====
section
/-! SUPPORT. Each unit's step as a pure function of its own state (R6), and that the machine's step is made of
them: what a proof about a run needs, without the decoder and without the other unit. -/

namespace Sys2Proof.Machine

/-- `push(b)` on the receiver alone: the receiver after it, the status and the length; `none` where RX_DATA would
write outside the buffer. The listing at the end of 40_receiver.md. -/
def rxStep (r : Rx) (b : Byte) : Option (Rx × RxStatus × Half) :=
  match r.state with
  | .waitingForDelimiter =>
    if b = delimiter then some ({ r with state := .receivingLengthMsb }, .none, 0) else some (r, .none, 0)
  | .receivingLengthMsb =>
    if exceedsCap (lengthHigh b) r.cap then some (r.resetCounters, .capacityRejected, 0)
    else some ({ r with remaining := lengthHigh b, state := .receivingLengthLsb }, .none, 0)
  | .receivingLengthLsb =>
    let n := lengthWithLow r.remaining b
    if exceedsCap n r.cap then some (r.resetCounters, .capacityRejected, 0)
    else some ({ r with remaining := n, state := if n = 0 then .receivingChecksum else .receivingData }, .none, 0)
  | .receivingData =>
    if r.cursor < r.cap then
      some ({ r with
        buf := Memory.write r.buf r.cursor.toNat b
        cursor := r.cursor + 1
        checksum := addChecksum r.checksum b
        remaining := r.remaining - 1
        state := if 0 < r.remaining - 1 then .receivingData else .receivingChecksum }, .none, 0)
    else none
  | .receivingChecksum =>
    if checksumMatches r.checksum b then some (r.resetCounters, .frameAccepted, r.cursor)
    else some (r.resetCounters, .checksumRejected, 0)

/-- `next()` on the serializer alone; `none` where TX_DATA would read outside the payload. -/
def txNext (t : Tx) : Option (Tx × Option Byte) :=
  match t.phase with
  | .txIdle => some (t, none)
  | .txDelimiter => some ({ t with phase := .txLengthMsb }, some delimiter)
  | .txLengthMsb => some ({ t with phase := .txLengthLsb }, some (hiByte t.len))
  | .txLengthLsb => some ({ t with phase := if t.len = 0 then .txChecksum else .txData }, some (loByte t.len))
  | .txData =>
    if t.index < t.cap then
      some ({ t with
        sum := addChecksum t.sum (t.read t.index.toNat)
        index := t.index + 1
        phase := if t.index + 1 < t.len then .txData else .txChecksum }, some (t.read t.index.toNat))
    else none
  | .txChecksum => some ({ t with phase := .txIdle }, some (checksumByte t.sum))

/-! The receiver's step, one lemma per row of R76 and outcome. -/

theorem rxStep_sync {r : Rx} (h : r.state = .waitingForDelimiter) :
    rxStep r delimiter = some ({ r with state := .receivingLengthMsb }, .none, 0) := by
  simp [rxStep, h]

theorem rxStep_discard {r : Rx} {b : Byte} (h : r.state = .waitingForDelimiter) (hb : b ≠ delimiter) :
    rxStep r b = some (r, .none, 0) := by
  simp [rxStep, h, hb]

theorem rxStep_msb {r : Rx} {b : Byte} (h : r.state = .receivingLengthMsb)
    (hc : b.toNat * 256 ≤ r.cap.toNat) :
    rxStep r b = some ({ r with remaining := lengthHigh b, state := .receivingLengthLsb }, .none, 0) := by
  simp only [rxStep, h]
  exact if_neg (by rw [exceedsCap_iff, lengthHigh_toNat]; omega)

theorem rxStep_msb_reject {r : Rx} {b : Byte} (h : r.state = .receivingLengthMsb)
    (hc : r.cap.toNat < b.toNat * 256) : rxStep r b = some (r.resetCounters, .capacityRejected, 0) := by
  simp only [rxStep, h]
  exact if_pos (by rw [exceedsCap_iff, lengthHigh_toNat]; omega)

theorem rxStep_lsb {r : Rx} {b : Byte} (h : r.state = .receivingLengthLsb)
    (hc : (lengthWithLow r.remaining b).toNat ≤ r.cap.toNat) :
    rxStep r b = some ({ r with
      remaining := lengthWithLow r.remaining b
      state := if lengthWithLow r.remaining b = 0 then .receivingChecksum else .receivingData }, .none, 0) := by
  simp only [rxStep, h]
  exact if_neg (by rw [exceedsCap_iff]; omega)

theorem rxStep_lsb_reject {r : Rx} {b : Byte} (h : r.state = .receivingLengthLsb)
    (hc : r.cap.toNat < (lengthWithLow r.remaining b).toNat) :
    rxStep r b = some (r.resetCounters, .capacityRejected, 0) := by
  simp only [rxStep, h]
  exact if_pos (by rw [exceedsCap_iff]; omega)

theorem rxStep_data {r : Rx} {b : Byte} (h : r.state = .receivingData) (hc : r.cursor.toNat < r.cap.toNat) :
    rxStep r b = some ({ r with
      buf := Memory.write r.buf r.cursor.toNat b
      cursor := r.cursor + 1
      checksum := addChecksum r.checksum b
      remaining := r.remaining - 1
      state := if 0 < r.remaining - 1 then .receivingData else .receivingChecksum }, .none, 0) := by
  simp only [rxStep, h]
  exact if_pos hc

theorem rxStep_accept {r : Rx} {b : Byte} (h : r.state = .receivingChecksum) (hb : b = checksumByte r.checksum) :
    rxStep r b = some (r.resetCounters, .frameAccepted, r.cursor) := by
  simp [rxStep, h, checksumMatches, hb]

theorem rxStep_reject {r : Rx} {b : Byte} (h : r.state = .receivingChecksum) (hb : b ≠ checksumByte r.checksum) :
    rxStep r b = some (r.resetCounters, .checksumRejected, 0) := by
  simp [rxStep, h, checksumMatches, hb]

/-- The operation a `push` selects does to the machine what `rxStep` does to the receiver, and no more. -/
theorem runSelectors_push (s : State) (st : RxState) (b : Byte) (rest : List Selector) (h : s.rx.state = st) :
    runSelectors (pushSelector st b :: rest) s =
      match rxStep s.rx b with
      | some (r, c, n) => runSelectors rest (s.pushed r c n)
      | none => .fault .rxBufOutOfRange := by
  cases st <;> simp only [rxStep, h]
  · by_cases hb : b = delimiter
    · rw [if_pos hb]
      have hd : decode (pushSelector .waitingForDelimiter b) = .ok .rxWaitSync := by
        simp [pushSelector, decode, decodeRx, RxState.code, hb]
      exact runSelectors_cons _ hd rfl
    · rw [if_neg hb]
      have hd : decode (pushSelector .waitingForDelimiter b) = .ok (.rxWaitDiscard b) := by
        simp [pushSelector, decode, decodeRx, RxState.code, hb]
      exact runSelectors_cons _ hd rfl
  · have hd : decode (pushSelector .receivingLengthMsb b) = .ok (.rxLenMsb b) := by
      simp [pushSelector, decode, decodeRx, RxState.code]
    by_cases hc : exceedsCap (lengthHigh b) s.rx.cap = true
    · rw [if_pos hc]
      exact runSelectors_cons _ hd (if_pos hc)
    · rw [if_neg hc]
      exact runSelectors_cons _ hd (if_neg hc)
  · have hd : decode (pushSelector .receivingLengthLsb b) = .ok (.rxLenLsb b) := by
      simp [pushSelector, decode, decodeRx, RxState.code]
    by_cases hc : exceedsCap (lengthWithLow s.rx.remaining b) s.rx.cap = true
    · rw [if_pos hc]
      exact runSelectors_cons _ hd (if_pos hc)
    · rw [if_neg hc]
      exact runSelectors_cons _ hd (if_neg hc)
  · have hd : decode (pushSelector .receivingData b) = .ok (.rxData b) := by
      simp [pushSelector, decode, decodeRx, RxState.code]
    by_cases hc : s.rx.cursor < s.rx.cap
    · rw [if_pos hc]
      exact runSelectors_cons _ hd (if_pos hc)
    · rw [if_neg hc]
      simp only [runSelectors, hd, exec, execRxData, if_neg hc]
  · have hd : decode (pushSelector .receivingChecksum b) = .ok (.rxCksum b) := by
      simp [pushSelector, decode, decodeRx, RxState.code]
    by_cases hc : checksumMatches s.rx.checksum b = true
    · rw [if_pos hc]
      exact runSelectors_cons _ hd (if_pos hc)
    · rw [if_neg hc]
      exact runSelectors_cons _ hd (if_neg hc)

/-- The operation a `next()` selects does to the machine what `txNext` does to the serializer, and no more. -/
theorem runSelectors_nextCall (s : State) (ph : TxPhase) (h : s.tx.phase = ph) :
    runSelectors [nextSelector ph] s =
      match txNext s.tx with
      | some (t, v) => .next (s.emitted t v)
      | none => .fault .txPayloadOutOfRange := by
  cases ph <;> simp only [txNext, h]
  · exact runSelectors_one (i := .txIdle) rfl s
  · exact runSelectors_one (i := .txDelim) rfl s
  · exact runSelectors_one (i := .txLenMsb) rfl s
  · exact runSelectors_one (i := .txLenLsb) rfl s
  · rw [runSelectors_one (i := .txData) rfl s]
    simp only [exec, execTxData]
    by_cases hc : s.tx.index < s.tx.cap
    · rw [if_pos hc, if_pos hc]
    · rw [if_neg hc, if_neg hc]
  · exact runSelectors_one (i := .txCksum) rfl s

/-- A call of `serialize(L)` in any phase. -/
theorem runSelectors_serialize (s : State) (len : Half) :
    runSelectors [.serialize len] s =
      if len ≤ s.tx.cap then
        .next (s.emitted { s.tx with len := len, index := 0, sum := 0, phase := .txDelimiter } none)
      else .refused .lengthExceedsTxCap :=
  runSelectors_one (i := .txStart len) rfl s

/-- A step whose call is one `push`. -/
theorem step_push {s : State} {b : Byte} {rest : List Action} (h : s.input = pushCall b :: rest) :
    step s = match rxStep s.rx b with
      | some (r, c, n) => .next ((s.begin rest).pushed r c n)
      | none => .fault .rxBufOutOfRange := by
  rw [step_cons h]
  exact runSelectors_push (s.begin rest) s.rx.state b [] rfl

/-- A step whose call is one `next()`. -/
theorem step_next {s : State} {rest : List Action} (h : s.input = nextCall :: rest) :
    step s = match txNext s.tx with
      | some (t, v) => .next ((s.begin rest).emitted t v)
      | none => .fault .txPayloadOutOfRange := by
  rw [step_cons h]
  exact runSelectors_nextCall (s.begin rest) s.tx.phase rfl

/-- A step whose call is one `serialize(L)`. -/
theorem step_serialize {s : State} {len : Half} {rest : List Action} (h : s.input = serializeCall len :: rest) :
    step s = if len ≤ s.tx.cap then
        .next ((s.begin rest).emitted { s.tx with len := len, index := 0, sum := 0, phase := .txDelimiter } none)
      else .refused .lengthExceedsTxCap := by
  rw [step_cons h]
  exact runSelectors_serialize (s.begin rest) len

/-- What the strobes of a step can do to the receiver: reset it, push one byte, or leave it alone. -/
def rxOfStrobes (p : Strobes) (r : Rx) : Option (Rx × RxStatus × Half) :=
  if p.reset then some (r.resetCounters, .none, 0)
  else match p.push with
    | some b => rxStep r b
    | none => some (r, .none, 0)

/-- What the strobes of a step can do to the serializer: reset it, start it, ask it for a byte, or leave it alone;
`none` where it stops. -/
def txOfStrobes (p : Strobes) (t : Tx) : Option (Tx × Option Byte) :=
  if p.reset then some (t.resetRegisters, none)
  else match p.start with
    | some len => if len ≤ t.cap then
        some ({ t with len := len, index := 0, sum := 0, phase := .txDelimiter }, none) else none
    | none => if p.next then txNext t else some (t, none)

/-- Leaving a unit alone is a step of it that returns nothing. -/
theorem State.emitted_self (s : State) (h : s.out.txByte = none) : s.emitted s.tx none = s := by
  obtain ⟨rx, tx, ⟨a, b, c, d, e⟩, i⟩ := s
  simp only at h
  subst h
  rfl

theorem State.begin_pushed_self (s : State) (rest : List Action) :
    (s.begin rest).pushed s.rx .none 0 = s.begin rest := rfl

/-- The serializer's part of a step, on a state whose serializer has not moved yet. -/
theorem runSelectors_txPart {u t : State} (p : Strobes) (ph : TxPhase) (hph : u.tx.phase = ph)
    (hu : u.out.txByte = none) (hr : p.reset = false) :
    runSelectors (serializerSelectors p ph) u = .next t ↔
    ∃ x v, txOfStrobes p u.tx = some (x, v) ∧ t = u.emitted x v := by
  simp only [serializerSelectors, txOfStrobes, hr, Bool.false_eq_true, if_false]
  cases p.start with
  | some len =>
    rw [runSelectors_serialize]
    by_cases hc : len ≤ u.tx.cap <;> simp [hc, eq_comm]
  | none =>
    cases p.next with
    | true =>
      simp only [if_true, runSelectors_nextCall u ph hph]
      cases txNext u.tx with
      | none => simp
      | some y => simp [eq_comm, Prod.ext_iff]
    | false => simp [runSelectors, u.emitted_self hu, eq_comm]

/-- A step of the block by strobes is the two units' steps side by side (R61, R188). -/
theorem step_strobe_next {s t : State} {p : Strobes} {rest : List Action} (h : s.input = .strobe p :: rest) :
    step s = .next t ↔ ∃ r c n x v, rxOfStrobes p s.rx = some (r, c, n) ∧ txOfStrobes p s.tx = some (x, v) ∧
      t = ((s.begin rest).pushed r c n).emitted x v := by
  rw [step_cons h]
  simp only [perform, strobeSelectors]
  by_cases hr : p.reset = true
  · simp only [rxOfStrobes, txOfStrobes, hr, if_true, runSelectors_one (sel := .reset) (i := .reset) rfl, exec,
      execReset]
    constructor
    · intro h; cases h; exact ⟨_, _, _, _, _, rfl, rfl, rfl⟩
    · rintro ⟨r, c, n, x, v, h1, h2, rfl⟩; cases h1; cases h2; rfl
  · have hr' : p.reset = false := by simpa using hr
    simp only [rxOfStrobes, hr', Bool.false_eq_true, if_false, State.begin_rx, State.begin_tx]
    cases p.push with
    | none =>
      rw [List.nil_append, runSelectors_txPart (u := s.begin rest) p s.tx.phase rfl rfl hr']
      constructor
      · rintro ⟨x, v, h1, h2⟩; exact ⟨_, _, _, x, v, rfl, h1, h2⟩
      · rintro ⟨r, c, n, x, v, h1, h2, h3⟩; cases h1; exact ⟨x, v, h2, h3⟩
    | some b =>
      rw [List.singleton_append, runSelectors_push (s.begin rest) s.rx.state b _ rfl, State.begin_rx]
      change _ ↔ ∃ r c n x v, rxStep s.rx b = some (r, c, n) ∧ txOfStrobes p s.tx = some (x, v) ∧ _
      generalize rxStep s.rx b = y
      cases y with
      | none => simp
      | some y =>
        obtain ⟨r, c, n⟩ := y
        simp only
        rw [runSelectors_txPart (u := (s.begin rest).pushed r c n) p s.tx.phase rfl rfl hr']
        constructor
        · rintro ⟨x, v, h1, h2⟩; exact ⟨_, _, _, x, v, rfl, h1, h2⟩
        · rintro ⟨r, c, n, x, v, h1, h2, h3⟩; cases h1; exact ⟨x, v, h2, h3⟩

/-- The serializer's registers are the same, and its payload buffer keeps its canonical form. -/
def Tx.SameRegs (t u : Tx) : Prop :=
  t.phase = u.phase ∧ t.index = u.index ∧ t.sum = u.sum ∧ t.len = u.len ∧ t.cap = u.cap ∧
    (Memory.Within u.payload u.cap → Memory.Within t.payload u.cap)

/-- `build` reaches no register of the serializer. -/
theorem State.build_sameRegs {s t : State} {required : Nat} {layout : List Byte} (hl : layout.length = required)
    (h : s.build required layout = .next t) :
    t.rx = s.rx ∧ t.out.rxStatus = s.out.rxStatus ∧ t.tx.SameRegs s.tx := by
  obtain ⟨-, rfl⟩ | ⟨hc, -, rfl⟩ := State.build_next h
  · exact ⟨rfl, rfl, rfl, rfl, rfl, rfl, rfl, fun _ => ⟨rfl, rfl⟩⟩
  · exact ⟨rfl, rfl, rfl, rfl, rfl, rfl, rfl, fun hw =>
      ⟨Memory.wf_writeAll _ _ hw.1, Memory.below_writeAll _ _ hw.2 (by omega)⟩⟩

/-- The operations that the first byte of a payload selects. -/
theorem decodePayload_cases {bytes : List Byte} {i : Instr} (h : decode (.payload bytes) = .ok i) :
    (∃ m, i = .atCommand m) ∨ (∃ m, i = .transmitRequest m) ∨ i = .atCommandResponse bytes ∨
      i = .zigbeeReceivePacket bytes := by
  simp only [decode, decodePayload] at h
  split at h
  · cases h
  split at h
  · unfold decodeAtCommand at h
    split at h <;> cases h <;> exact .inl ⟨_, rfl⟩
  split at h
  · unfold decodeTransmitRequest at h
    split at h <;> cases h
    exact .inr (.inl ⟨_, rfl⟩)
  split at h
  · cases h; exact .inr (.inr (.inl rfl))
  split at h
  · cases h; exact .inr (.inr (.inr rfl))
  · cases h

/-- What a message call can do: it reaches neither the receiver nor a register of the serializer. -/
theorem callMessage_sameRegs {bytes : List Byte} {s t : State} (h : callMessage bytes s = .next t) :
    t.rx = s.rx ∧ t.out.rxStatus = s.out.rxStatus ∧ t.tx.SameRegs s.tx := by
  obtain ⟨i, hd, h⟩ | ⟨-, rfl⟩ := callMessage_next h
  · obtain ⟨m, rfl⟩ | ⟨m, rfl⟩ | rfl | rfl := decodePayload_cases hd
    · exact State.build_sameRegs (AtCommand.layout_length m) h
    · exact State.build_sameRegs (TransmitRequest.layout_length m) h
    · cases h; exact ⟨rfl, rfl, rfl, rfl, rfl, rfl, rfl, id⟩
    · cases h; exact ⟨rfl, rfl, rfl, rfl, rfl, rfl, rfl, id⟩
  · exact ⟨rfl, rfl, rfl, rfl, rfl, rfl, rfl, id⟩

/-- The calls of the agents other than the block's own. -/
theorem perform_other {a : Action} {s t : State} (ha : ∀ p, a ≠ .strobe p) (h : perform a s = .next t) :
    t.rx = s.rx ∧ t.out.rxStatus = s.out.rxStatus ∧ t.tx.SameRegs s.tx := by
  cases a with
  | strobe p => exact absurd rfl (ha p)
  | readBuf i =>
    simp only [perform, consumerRead] at h
    split at h <;> cases h
    exact ⟨rfl, rfl, rfl, rfl, rfl, rfl, rfl, id⟩
  | writePayload i v =>
    obtain ⟨hc, -, rfl⟩ := ownerWrite_next h
    exact ⟨rfl, rfl, rfl, rfl, rfl, rfl, rfl, fun hw =>
      ⟨Memory.wf_write _ _ hw.1, Memory.below_write _ hw.2 hc⟩⟩
  | message bytes => exact callMessage_sameRegs h
  | receive len =>
    simp only [perform, consumerReceive] at h
    split at h
    · cases h
    split at h
    · rename_i k _
      cases k <;> cases h <;> exact ⟨rfl, rfl, rfl, rfl, rfl, rfl, rfl, id⟩
    · cases h; exact ⟨rfl, rfl, rfl, rfl, rfl, rfl, rfl, id⟩
  | parseAs k len =>
    simp only [perform, consumerParse] at h
    split at h
    · cases h
    cases k <;> cases h <;> exact ⟨rfl, rfl, rfl, rfl, rfl, rfl, rfl, id⟩

/-- What the calls of the other agents do to the payload bytes: none changes, or the call writes the payload; and none of
the sequence in progress changes, but for the unspecified bytes after `BufferTooSmall` (R215, U6). -/
theorem perform_other_reads {a : Action} {s t : State} (ha : ∀ p, a ≠ .strobe p) (h : perform a s = .next t) :
    (a.writesPayload = false → ∀ n, t.tx.read n = s.tx.read n) ∧
    (t.out.result ≠ some .bufferTooSmall ∨ a.disturbs s.tx = false → s.tx.phase ≠ .txIdle →
      ∀ n, n < s.tx.len.toNat → t.tx.read n = s.tx.read n) := by
  have bld : ∀ {req l}, s.build req l = .next t → t.out.result ≠ some .bufferTooSmall ∨ s.tx.sends 0 = false →
      s.tx.phase ≠ .txIdle → ∀ n, n < s.tx.len.toNat → t.tx.read n = s.tx.read n := by
    intro req l hb hc hp n hn
    have h0 : s.tx.sends 0 = true := (Tx.sends_eq_true _ _).2 ⟨hp, by omega⟩
    obtain ⟨-, rfl⟩ | ⟨-, h1, rfl⟩ := State.build_next hb
    · rw [h0] at hc; simp at hc
    · rw [h0] at h1; cases h1
  cases a with
  | strobe p => exact absurd rfl (ha p)
  | readBuf i =>
    simp only [perform, consumerRead] at h
    split at h <;> cases h
    exact ⟨fun _ _ => rfl, fun _ _ _ _ => rfl⟩
  | writePayload i v =>
    obtain ⟨hc, hs, rfl⟩ := ownerWrite_next h
    refine ⟨fun h => by simp [Action.writesPayload] at h, fun _ hp n hn => ?_⟩
    rw [Tx.sends_eq_false] at hs
    rw [Tx.read_write, if_neg]
    rcases hs with hs | hs
    · exact absurd hs hp
    · omega
  | message bytes =>
    obtain ⟨i, hd, h⟩ | ⟨-, rfl⟩ := callMessage_next h
    · obtain ⟨m, rfl⟩ | ⟨m, rfl⟩ | rfl | rfl := decodePayload_cases hd
      · have hc : isCommand bytes = true := by simp [isCommand, hd]
        exact ⟨fun h => by simp [Action.writesPayload, hc] at h,
          fun hh => bld h (hh.imp_right fun h => by simpa [Action.disturbs, hc] using h)⟩
      · have hc : isCommand bytes = true := by simp [isCommand, hd]
        exact ⟨fun h => by simp [Action.writesPayload, hc] at h,
          fun hh => bld h (hh.imp_right fun h => by simpa [Action.disturbs, hc] using h)⟩
      · cases h; exact ⟨fun _ _ => rfl, fun _ _ _ _ => rfl⟩
      · cases h; exact ⟨fun _ _ => rfl, fun _ _ _ _ => rfl⟩
    · exact ⟨fun _ _ => rfl, fun _ _ _ _ => rfl⟩
  | receive len =>
    simp only [perform, consumerReceive] at h
    split at h
    · cases h
    split at h
    · rename_i k _; cases k <;> cases h <;> exact ⟨fun _ _ => rfl, fun _ _ _ _ => rfl⟩
    · cases h; exact ⟨fun _ _ => rfl, fun _ _ _ _ => rfl⟩
  | parseAs k len =>
    simp only [perform, consumerParse] at h
    split at h
    · cases h
    cases k <;> cases h <;> exact ⟨fun _ _ => rfl, fun _ _ _ _ => rfl⟩

/-- No strobe writes the payload buffer (R55). -/
theorem txOfStrobes_payload {t t' : Tx} {p : Strobes} {v : Option Byte} (h : txOfStrobes p t = some (t', v)) :
    t'.payload = t.payload ∧ t'.draw = t.draw := by
  unfold txOfStrobes txNext at h
  split at h
  · cases h; exact ⟨rfl, rfl⟩
  split at h
  · split at h <;> cases h; exact ⟨rfl, rfl⟩
  split at h
  · split at h <;> (try split at h) <;> cases h <;> exact ⟨rfl, rfl⟩
  · cases h; exact ⟨rfl, rfl⟩

/-- All that a step can do: the two units step by the strobes of the call, or another agent's call leaves the
receiver and the serializer's registers as they were. -/
theorem step_cases {s t : State} (h : step s = .next t) :
    (∃ p rest r c n x v, s.input = .strobe p :: rest ∧ rxOfStrobes p s.rx = some (r, c, n) ∧
      txOfStrobes p s.tx = some (x, v) ∧ t = ((s.begin rest).pushed r c n).emitted x v) ∨
    ((∀ p rest, s.input ≠ .strobe p :: rest) ∧ t.rx = s.rx ∧ t.out.rxStatus = .none ∧ t.tx.SameRegs s.tx) := by
  cases hi : s.input with
  | nil =>
    simp only [step, hi] at h; cases h
    exact .inr ⟨by simp, rfl, rfl, rfl, rfl, rfl, rfl, rfl, id⟩
  | cons a rest =>
    by_cases ha : ∃ p, a = .strobe p
    · obtain ⟨p, rfl⟩ := ha
      obtain ⟨r, c, n, x, v, h1, h2, h3⟩ := (step_strobe_next hi).1 h
      exact .inl ⟨p, rest, r, c, n, x, v, rfl, h1, h2, h3⟩
    · rw [step_cons hi] at h
      obtain ⟨h1, h2, h3⟩ := perform_other (fun p hp => ha ⟨p, hp⟩) h
      exact .inr ⟨fun p rest' hh => ha ⟨p, (List.cons.inj hh).1⟩, h1, h2, h3⟩

end Sys2Proof.Machine
end

