-- ==== Sys2Proof/Tests/Slice0.lean ====
section
/-! SUPPORT. Tests of single steps whose expected results are the vectors of 95_test_vectors.md (named in each
comment) or worked out by hand from a rule, and a witness for every obligation that has hypotheses. -/

namespace Sys2Proof.Tests

open Sys2Proof Sys2Proof.Machine

/-! ## Small states and readers -/

/-- A machine at reset whose receiver registers and `RX_CAP` are given. -/
def rxAt (cap : Half) (state : RxState) (cursor remaining : Half) (checksum : Byte) : State :=
  let s := State.resetWith cap 8
  { s with rx := { s.rx with state := state, cursor := cursor, remaining := remaining, checksum := checksum } }

/-- A machine at reset whose serializer registers, payload bytes and `TX_CAP` are given. -/
def txAt (cap : Half) (phase : TxPhase) (index : Half) (sum : Byte) (len : Half) (payload : Memory) : State :=
  let s := State.resetWith 8 cap
  { s with tx := { s.tx with phase := phase, index := index, sum := sum, len := len, payload := payload } }

/-- The same machine with its receiver's buffer given. -/
def holding (s : State) (buf : Memory) : State := { s with rx := { s.rx with buf := buf } }

/-- The same machine with its pending calls given. -/
def calling (s : State) (input : List Action) : State := { s with input := input }

/-- The receiver registers, the status and the length after a step that went on. -/
def rxRow : Host.Outcome State Fault Refusal → Option (RxState × Half × Half × Byte × RxStatus × Half)
  | .next t => some (t.rx.state, t.rx.cursor, t.rx.remaining, t.rx.checksum, t.out.rxStatus, t.out.rxFrameLen)
  | _ => none

/-- The serializer registers and the byte returned after a step that went on. -/
def txRow : Host.Outcome State Fault Refusal → Option (TxPhase × Half × Byte × Half × Option Byte)
  | .next t => some (t.tx.phase, t.tx.index, t.tx.sum, t.tx.len, t.out.txByte)
  | _ => none

/-- The receiver's buffer after a step that went on. -/
def bufRow : Host.Outcome State Fault Refusal → Option Memory
  | .next t => some t.rx.buf
  | _ => none

/-- The payload buffer and the collaborator's result after a step that went on. -/
def callRow : Host.Outcome State Fault Refusal → Option (Memory × Option CallResult)
  | .next t => some (t.tx.payload, t.out.result)
  | _ => none

/-- Whether a step went on. -/
def goesOn : Host.Outcome State Fault Refusal → Bool
  | .next _ => true
  | _ => false

/-! ## Well-formedness: an ill-formed term for each check -/

theorem test_wf_discard_of_delimiter : (Instr.rxWaitDiscard 0x7E).wf = false := by decide
theorem test_wf_discard : (Instr.rxWaitDiscard 0x7D).wf = true := by decide

theorem test_wf_response_of_other_identifier : (Instr.atCommandResponse [0x90, 0, 0, 0, 0]).wf = false := by decide
theorem test_wf_response_empty : (Instr.atCommandResponse []).wf = false := by decide
theorem test_wf_packet_of_other_identifier : (Instr.zigbeeReceivePacket [0x88]).wf = false := by decide
theorem test_wf_packet_empty : (Instr.zigbeeReceivePacket []).wf = false := by decide

/-! ## Decoding: words written out bit by bit from R76, R77, R83, R86 -/

/-- Tag 0, byte `0x7E`: bits 10 to 8 are `000`, bits 7 to 0 are `0111_1110`. -/
theorem test_decode_rx_wait_sync : decode (.rx 0b000_01111110) = .ok .rxWaitSync := rfl
/-- Tag 0, byte `0x13` (the example of R101). -/
theorem test_decode_rx_wait_discard : decode (.rx 0b000_00010011) = .ok (.rxWaitDiscard 0x13) := rfl
theorem test_decode_rx_len_msb : decode (.rx 0b001_00000001) = .ok (.rxLenMsb 0x01) := rfl
theorem test_decode_rx_len_lsb : decode (.rx 0b010_00101100) = .ok (.rxLenLsb 0x2C) := rfl
/-- `0x7E` is data in `ReceivingData` (R80). -/
theorem test_decode_rx_data : decode (.rx 0b011_01111110) = .ok (.rxData 0x7E) := rfl
theorem test_decode_rx_cksum : decode (.rx 0b100_10001101) = .ok (.rxCksum 0x8D) := rfl
theorem test_decode_rx_unused : decode (.rx 0b101_01111110) = .error .unusedRxTag := rfl
theorem test_decode_tx_idle : decode (.tx 0b000) = .ok .txIdle := rfl
theorem test_decode_tx_delim : decode (.tx 0b001) = .ok .txDelim := rfl
theorem test_decode_tx_len_msb : decode (.tx 0b010) = .ok .txLenMsb := rfl
theorem test_decode_tx_len_lsb : decode (.tx 0b011) = .ok .txLenLsb := rfl
theorem test_decode_tx_data : decode (.tx 0b100) = .ok .txData := rfl
theorem test_decode_tx_cksum : decode (.tx 0b101) = .ok .txCksum := rfl
theorem test_decode_tx_unused : decode (.tx 0b110) = .error .unusedTxPhase := rfl
/-- The two CALL rows have no word: they are selected by their own call (R86). -/
theorem test_decode_tx_start : decode (.serialize 300) = .ok (.txStart 300) := rfl
theorem test_decode_reset : decode .reset = .ok .reset := rfl

/-- S4: `08 52 4E 4A` is the AT command `N J` with frame id `0x52`. -/
theorem test_decode_at_command :
    decode (.payload [0x08, 0x52, 0x4E, 0x4A]) = .ok (.atCommand ⟨0x52, 0x4E, 0x4A, none⟩) := rfl

/-- S5, written out in the order of R153, with the defaults of R155. -/
theorem test_decode_transmit_request :
    decode (.payload [0x10, 0x01, 0x00, 0x13, 0xA2, 0x00, 0x40, 0x0A, 0x01, 0x27, 0xFF, 0xFE, 0x00, 0x00,
      0x54, 0x78, 0x44, 0x61, 0x74, 0x61, 0x30, 0x41])
    = .ok (.transmitRequest { TransmitRequest.withDefaults 1 [0x54, 0x78, 0x44, 0x61, 0x74, 0x61, 0x30, 0x41] with
        destination := 0x0013A200400A0127 }) := rfl

theorem test_decode_at_command_response :
    decode (.payload [0x88, 0x52, 0x4E, 0x4A, 0x10]) = .ok (.atCommandResponse [0x88, 0x52, 0x4E, 0x4A, 0x10]) := rfl
theorem test_decode_zigbee_receive_packet :
    decode (.payload [0x90, 0x00]) = .ok (.zigbeeReceivePacket [0x90, 0x00]) := rfl
theorem test_decode_unknown_identifier : decode (.payload [0x92]) = .error .unknownIdentifier := rfl
/-- U12: the unnamed bits of the options byte (`0x9E` is all five of them) are ignored. -/
theorem test_decode_options_unnamed_bits :
    decode (.payload [0x10, 0, 0, 0, 0, 0, 0, 0, 0, 0, 0, 0, 0, 0x9E])
      = .ok (.transmitRequest ⟨0, 0, 0, 0, false, false, false, []⟩) := rfl

/-- The table's numbering: bits 10 to 8 the tag, bits 7 to 0 the byte, and the word is fetched and run. -/
theorem test_table_word_rx_data :
    decodeTableWord 16 0x37E = some (.rxData 0x7E) ∧
    rxRow (step (State.reset.withFetchWord 16 0x07E)) = some (.receivingLengthMsb, 0, 0, 0, .none, 0) := by decide

/-! ## The receiver, one step each -/

/-- V-RX1. -/
theorem test_rx_wait_discard :
    rxRow (exec (.rxWaitDiscard 0x00) (rxAt 8 .waitingForDelimiter 0 0 0))
      = some (.waitingForDelimiter, 0, 0, 0, .none, 0) := by decide
/-- V-RX3. -/
theorem test_rx_wait_sync :
    rxRow (exec .rxWaitSync (rxAt 8 .waitingForDelimiter 0 0 0))
      = some (.receivingLengthMsb, 0, 0, 0, .none, 0) := by decide
/-- V-RX6. -/
theorem test_rx_len_msb_loads :
    rxRow (exec (.rxLenMsb 0x01) (rxAt 300 .receivingLengthMsb 0 0 0))
      = some (.receivingLengthLsb, 0, 256, 0, .none, 0) := by decide
/-- V-RX21. -/
theorem test_rx_len_msb_rejects :
    rxRow (exec (.rxLenMsb 0x01) (rxAt 255 .receivingLengthMsb 0 0 0))
      = some (.waitingForDelimiter, 0, 0, 0, .capacityRejected, 0) := by decide
/-- V-RX7. -/
theorem test_rx_len_lsb_at_capacity :
    rxRow (exec (.rxLenLsb 0x2C) (rxAt 300 .receivingLengthLsb 0 256 0))
      = some (.receivingData, 0, 300, 0, .none, 0) := by decide
/-- V-RX8. -/
theorem test_rx_len_lsb_over_capacity :
    rxRow (exec (.rxLenLsb 0x2D) (rxAt 300 .receivingLengthLsb 0 256 0))
      = some (.waitingForDelimiter, 0, 0, 0, .capacityRejected, 0) := by decide
/-- V-RX11, with the buffer write at the cursor before the increment. -/
theorem test_rx_data_stores :
    rxRow (exec (.rxData 0x4E) (rxAt 8 .receivingData 2 2 0x5A)) = some (.receivingData, 3, 1, 0xA8, .none, 0) ∧
    bufRow (exec (.rxData 0x4E) (rxAt 8 .receivingData 2 2 0x5A)) = some [(2, 0x4E)] := by decide
/-- V-RX13: the last byte, and the checksum wraps. -/
theorem test_rx_data_last_wraps :
    rxRow (exec (.rxData 0x01) (rxAt 8 .receivingData 1 1 0xFF))
      = some (.receivingChecksum, 2, 0, 0x00, .none, 0) := by decide
/-- V-RX14: the length is the cursor before the reset. -/
theorem test_rx_cksum_accepts :
    rxRow (exec (.rxCksum 0x0D) (rxAt 8 .receivingChecksum 4 0 0xF2))
      = some (.waitingForDelimiter, 0, 0, 0, .frameAccepted, 4) := by decide
/-- V-RX16. -/
theorem test_rx_cksum_rejects :
    rxRow (exec (.rxCksum 0x8D) (rxAt 8 .receivingChecksum 4 0 0xF2))
      = some (.waitingForDelimiter, 0, 0, 0, .checksumRejected, 0) := by decide

/-! ## The serializer and reset, one step each -/

/-- V-TX2: restart in mid-sequence. -/
theorem test_tx_start_restarts :
    txRow (exec (.txStart 2) (txAt 8 .txData 3 0xA8 5 [])) = some (.txDelimiter, 0, 0, 2, none) := by decide
/-- V-TX3. -/
theorem test_tx_delim :
    txRow (exec .txDelim (txAt 8 .txDelimiter 0 0 5 [])) = some (.txLengthMsb, 0, 0, 5, some 0x7E) := by decide
/-- V-TX5. -/
theorem test_tx_len_msb :
    txRow (exec .txLenMsb (txAt 300 .txLengthMsb 0 0 300 [])) = some (.txLengthLsb, 0, 0, 300, some 0x01) := by decide
/-- V-TX8: a low byte of 0 is not an empty payload. -/
theorem test_tx_len_lsb_256 :
    txRow (exec .txLenLsb (txAt 256 .txLengthLsb 0 0 256 [])) = some (.txData, 0, 0, 256, some 0x00) := by decide
/-- V-TX7: an empty payload skips `TxData`. -/
theorem test_tx_len_lsb_empty :
    txRow (exec .txLenLsb (txAt 8 .txLengthLsb 0 0 0 [])) = some (.txChecksum, 0, 0, 0, some 0x00) := by decide
/-- V-TX9. -/
theorem test_tx_data :
    txRow (exec .txData (txAt 8 .txData 1 0x08 5 [(1, 0x52)])) = some (.txData, 2, 0x5A, 5, some 0x52) := by decide
/-- V-TX10: the last payload byte, and the sum wraps. -/
theorem test_tx_data_last_wraps :
    txRow (exec .txData (txAt 8 .txData 4 0xF2 5 [(4, 0x4B)])) = some (.txChecksum, 5, 0x3D, 5, some 0x4B) := by decide
/-- V-TX13: a checksum byte equal to the delimiter. -/
theorem test_tx_cksum :
    txRow (exec .txCksum (txAt 8 .txChecksum 1 0x81 1 [])) = some (.txIdle, 1, 0x81, 1, some 0x7E) := by decide
/-- V-TX14. -/
theorem test_tx_idle :
    txRow (exec .txIdle (txAt 8 .txIdle 5 0x3D 5 [])) = some (.txIdle, 5, 0x3D, 5, none) := by decide
/-- V-TX15, the serializer. -/
theorem test_reset_serializer :
    txRow (exec .reset (txAt 8 .txData 1 0x08 5 [(1, 0x52)])) = some (.txIdle, 0, 0, 0, none) := by decide
/-- R212: the attempt is dropped, the stale byte stays. -/
theorem test_reset_receiver :
    rxRow (exec .reset (holding (rxAt 8 .receivingData 1 2 0x5A) [(0, 0x5A)]))
      = some (.waitingForDelimiter, 0, 0, 0, .none, 0) ∧
    bufRow (exec .reset (holding (rxAt 8 .receivingData 1 2 0x5A) [(0, 0x5A)])) = some [(0, 0x5A)] := by decide

/-! ## The collaborators -/

/-- V-P3: byte 5 of the buffer is unchanged. -/
theorem test_at_command_builds :
    callRow (exec (.atCommand ⟨0x52, 0x4E, 0x4A, some 0x4B⟩) (txAt 8 .txIdle 0 0 0 [(0, 0xEE), (5, 0xEE)]))
      = some ([(0, 0x08), (1, 0x52), (2, 0x4E), (3, 0x4A), (4, 0x4B), (5, 0xEE)], some (.built 5)) := by decide
/-- V-P2. -/
theorem test_at_command_too_small :
    (callRow (exec (.atCommand ⟨0x52, 0x4E, 0x4A, some 0x4B⟩) (txAt 4 .txIdle 0 0 0 []))).map (·.2)
      = some (some .bufferTooSmall) := by decide
/-- V-P9. -/
theorem test_transmit_request_defaults :
    (callRow (exec (.transmitRequest (.withDefaults 0 [])) (txAt 14 .txIdle 0 0 0 []))).map
      (fun x => (x.1.map (·.2), x.2))
      = some ([0x10, 0, 0, 0, 0, 0, 0, 0, 0xFF, 0xFF, 0xFF, 0xFE, 0, 0], some (.built 14)) := by decide
/-- V-P10 (S5): 21 bytes where 22 are needed. -/
theorem test_transmit_request_too_small :
    (callRow (exec (.transmitRequest (.withDefaults 1 [0x54, 0x78, 0x44, 0x61, 0x74, 0x61, 0x30, 0x41]))
      (txAt 21 .txIdle 0 0 0 []))).map (·.2) = some (some .bufferTooSmall) := by decide
/-- 65522 data bytes need 65536 bytes, more than any buffer has (R5, R153): `BufferTooSmall`. -/
theorem test_transmit_request_longer_than_any_buffer (payload : List Byte) (h : payload.length = 65522) :
    (callRow (exec (.transmitRequest (.withDefaults 0 payload)) (txAt 65535 .txIdle 0 0 0 []))).map (·.2)
      = some (some .bufferTooSmall) := by
  have hc : (txAt 65535 .txIdle 0 0 0 []).tx.cap.toNat < transmitRequestRequired (.withDefaults 0 payload) := by
    simp [transmitRequestRequired, TransmitRequest.withDefaults, h, txAt, State.resetWith]
  simp only [exec, execTransmitRequest, State.build_tooSmall _ hc, callRow]
  rfl

/-- V-P5 to V-P8. -/
theorem test_options_byte :
    optionsByte true false false = 0x01 ∧ optionsByte false true false = 0x20 ∧
    optionsByte false false true = 0x40 ∧ optionsByte true true true = 0x61 := by decide
/-- V-P13. -/
theorem test_at_command_response_parsed :
    parseAtResponse [0x88, 0x52, 0x4E, 0x4A, 0x04, 0x2A]
      = .atResponse ⟨0x52, 0x4E, 0x4A, .txFailure, some 0x2A⟩ := by decide
/-- V-P14, V-P15, V-P16 and V-P17. -/
theorem test_at_command_response_errors :
    parseAtResponse [0x88, 0x52, 0x4E, 0x4A, 0x05] = .parseError .invalidEnumValue ∧
    parseAtResponse [0x88, 0x52, 0x4E, 0x4A, 0, 0, 0] = .parseError .sizeOutOfRange ∧
    parseAtResponse [0x90, 0x52, 0x4E, 0x4A, 0] = .parseError .idMismatch ∧
    parseAtResponse [0x90, 0x52, 0x4E, 0x4A] = .parseError .sizeOutOfRange := by decide
/-- S6. -/
theorem test_zigbee_receive_packet_parsed :
    parseZigbee [0x90, 0x00, 0x13, 0xA2, 0x00, 0x40, 0x52, 0x2B, 0xAA, 0x7D, 0x84, 0x01, 0x52, 0x78, 0x44, 0x61, 0x74, 0x61]
      = .zigbeePacket ⟨0x0013A20040522BAA, 0x7D84, true, false, false, false,
          [0x52, 0x78, 0x44, 0x61, 0x74, 0x61]⟩ := by decide
/-- V-P18 and V-P20. -/
theorem test_zigbee_receive_packet_flags :
    parseZigbee [0x90, 0x00, 0x13, 0xA2, 0x00, 0x40, 0x52, 0x2B, 0xAA, 0x7D, 0x84, 0x43]
      = .zigbeePacket ⟨0x0013A20040522BAA, 0x7D84, true, true, false, true, []⟩ ∧
    parseZigbee [0x90, 0x00, 0x13, 0xA2, 0x00, 0x40, 0x52, 0x2B, 0xAA, 0x7D, 0x84, 0x9C]
      = .zigbeePacket ⟨0x0013A20040522BAA, 0x7D84, false, false, false, false, []⟩ := by decide

/-! ## The wire and the step -/

/-- V-F1, V-F4, V-F8 and V-F10. -/
theorem test_frame :
    frame [] = [0x7E, 0x00, 0x00, 0xFF] ∧
    frame [0x81] = [0x7E, 0x00, 0x01, 0x81, 0x7E] ∧
    frame [0xFF, 0xFF, 0xFF] = [0x7E, 0x00, 0x03, 0xFF, 0xFF, 0xFF, 0x02] ∧
    frame [0x08, 0x52, 0x4E, 0x4A] = [0x7E, 0x00, 0x04, 0x08, 0x52, 0x4E, 0x4A, 0x0D] := by decide

/-- R188: the sequence starts and no byte is returned, while the `push` takes place too. -/
theorem test_step_simultaneous :
    txRow (step (calling (rxAt 8 .waitingForDelimiter 0 0 0)
      [.strobe { reset := false, push := some 0x7E, start := some 2, next := true }]))
      = some (.txDelimiter, 0, 0, 2, none) ∧
    rxRow (step (calling (rxAt 8 .waitingForDelimiter 0 0 0)
      [.strobe { reset := false, push := some 0x7E, start := some 2, next := true }]))
      = some (.receivingLengthMsb, 0, 0, 0, .none, 0) := ⟨by decide, by decide⟩

/-- R163: a payload that no variant responds to is ignored (the end of program P4). -/
theorem test_step_receive_ignores :
    (callRow (step (calling (holding (rxAt 8 .waitingForDelimiter 0 0 0) [(0, 0x08)]) [.receive 1]))).map (·.2)
      = some (some .ignored) := by decide

/-- U12, R163: a message of no known identifier, and AT command bytes one short of a message, are ignored. -/
theorem test_step_message_ignored :
    (callRow (step (calling State.reset [.message [0x92, 0x00]]))).map (·.2) = some (some .ignored) ∧
    (callRow (step (calling State.reset [.message [0x08, 0x52, 0x4E]]))).map (·.2) = some (some .ignored) ∧
    (callRow (step (calling State.reset [.message []]))).map (·.2) = some (some .ignored) := by decide

/-- U7: the last payload byte of a sequence in progress may not be written; the one past it may (log 10). -/
theorem test_step_write_into_sequence :
    goesOn (step (calling (txAt 8 .txData 1 0 5 []) [.writePayload 4 0x55])) = false ∧
    goesOn (step (calling (txAt 8 .txData 1 0 5 []) [.writePayload 5 0x55])) = true ∧
    goesOn (step (calling (txAt 8 .txIdle 5 0 5 []) [.writePayload 4 0x55])) = true := by decide

/-- The buffer is read back by the consumer. -/
theorem test_step_read_buf :
    (match step (calling (holding (rxAt 8 .waitingForDelimiter 0 0 0) [(7, 0x4E)]) [.readBuf 7]) with
      | .next t => t.out.rdData
      | _ => none) = some 0x4E := by decide

/-! ## Witnesses: for every obligation with hypotheses, a state and operands that meet them, clause by clause

Each `witness_<Name>` states the hypotheses of `Obligations.<Name>` at concrete values. -/

/-- The longest form of each check of `Instr.wf` that a small term reaches. -/
theorem witness_DecodeOfEncodeIsIdentity :
    (Instr.rxWaitDiscard 0x7F).wf = true ∧ (Instr.rxData 0x7E).wf = true ∧
    (Instr.transmitRequest (.withDefaults 0 [0x54])).wf = true ∧
    (Instr.atCommandResponse [0x88]).wf = true ∧ (Instr.zigbeeReceivePacket [0x90]).wf = true := by decide

theorem witness_EncodeOfDecodeIsIdentity :
    decode (.rx 0b100_11111111) = .ok (.rxCksum 0xFF) ∧ decode (.tx 5) = .ok .txCksum ∧
    decode (.payload [0x08, 0x52, 0x4E, 0x4A]) = .ok (.atCommand ⟨0x52, 0x4E, 0x4A, none⟩) ∧
    (∃ i, decode (.payload [0x10, 0, 0, 0, 0, 0, 0, 0, 0, 0, 0, 0, 0, 0xFF]) = .ok i) := ⟨rfl, rfl, rfl, _, rfl⟩

theorem witness_UnusedTagsAreRefused : 5 ≤ (5 : BitVec 3).toNat ∧ 6 ≤ (6 : BitVec 3).toNat := by decide

/-- One witness for each of the five calls. -/
theorem witness_StepRunsDecodedInstruction :
    ((calling (rxAt 8 .receivingData 2 2 0x5A) [pushCall 0x4E, nextCall]).input = pushCall 0x4E :: [nextCall] ∧
      decode (pushSelector .receivingData 0x4E) = .ok (.rxData 0x4E)) ∧
    ((calling (txAt 8 .txData 1 0x08 5 []) [nextCall]).input = nextCall :: [] ∧
      decode (nextSelector .txData) = .ok .txData) ∧
    ((calling State.reset [serializeCall 4]).input = serializeCall 4 :: [] ∧
      decode (.serialize 4) = .ok (.txStart 4)) ∧
    ((calling State.reset [resetCall]).input = resetCall :: [] ∧ decode .reset = .ok .reset) ∧
    ((calling State.reset [.message [0x90]]).input = .message [0x90] :: [] ∧
      decode (.payload [0x90]) = .ok (.zigbeeReceivePacket [0x90])) :=
  ⟨⟨rfl, rfl⟩, ⟨rfl, rfl⟩, ⟨rfl, rfl⟩, ⟨rfl, rfl⟩, ⟨rfl, rfl⟩⟩

/-- A command of each kind, a response of each kind, an unknown identifier and an empty payload. -/
theorem witness_MessageCallRunsItsOperation :
    (calling State.reset [.message [0x08, 0x52, 0x4E, 0x4A]]).input
      = .message (AtCommand.layout ⟨0x52, 0x4E, 0x4A, none⟩) :: [] ∧
    (calling State.reset [.message [0x10, 0, 0, 0, 0, 0, 0, 0, 0xFF, 0xFF, 0xFF, 0xFE, 0, 0]]).input
      = .message (TransmitRequest.withDefaults 0 []).layout :: [] ∧
    (calling State.reset [.message [0x88]]).input = .message [0x88] :: [] ∧ [(0x88 : Byte)].head? = some 0x88 ∧
    (calling State.reset [.message [0x90]]).input = .message [0x90] :: [] ∧ [(0x90 : Byte)].head? = some 0x90 ∧
    (∀ id, [(0x92 : Byte)].head? = some id → id ≠ 0x08 ∧ id ≠ 0x10 ∧ id ≠ 0x88 ∧ id ≠ 0x90) ∧
    (∀ id, ([] : List Byte).head? = some id → id ≠ 0x08 ∧ id ≠ 0x10 ∧ id ≠ 0x88 ∧ id ≠ 0x90) :=
  ⟨by decide, by decide, rfl, rfl, rfl, rfl, by decide, by decide⟩

theorem witness_StepWithoutCallKeepsUnits :
    State.reset.input = [] ∧
    (calling State.reset [.strobe { reset := false, push := none, start := none, next := false }]).input
      = .strobe { reset := false, push := none, start := none, next := false } :: [] := ⟨rfl, rfl⟩

/-- The clauses on `reset`, on a `push` beside `serialize`, and on a `push` beside `next`. -/
theorem witness_SimultaneousStrobes :
    (∃ p : Strobes, (calling State.reset [.strobe p]).input = .strobe p :: [] ∧ p.reset = true) ∧
    (∃ t, decode (pushSelector .waitingForDelimiter 0x7E) = .ok .rxWaitSync ∧
      exec .rxWaitSync (State.begin (calling State.reset
        [.strobe { reset := false, push := some 0x7E, start := some 4, next := false }]) []) = .next t) ∧
    (∃ t, decode (pushSelector .waitingForDelimiter 0x13) = .ok (.rxWaitDiscard 0x13) ∧
      decode (nextSelector .txIdle) = .ok .txIdle ∧
      exec (.rxWaitDiscard 0x13) (State.begin (calling State.reset
        [.strobe { reset := false, push := some 0x13, start := none, next := true }]) []) = .next t) :=
  ⟨⟨⟨true, none, none, false⟩, rfl, rfl⟩, ⟨_, rfl, rfl⟩, ⟨_, rfl, rfl, rfl⟩⟩

/-- Both units equal and both strobes equal, in two machines whose pending calls differ. -/
theorem witness_UnitsDoNotInterfere :
    ∃ s s' t t' : State, ∃ p p' : Strobes, ∃ rest rest' : List Action,
      s.input = .strobe p :: rest ∧ s'.input = .strobe p' :: rest' ∧ p.reset = p'.reset ∧
      step s = .next t ∧ step s' = .next t' ∧
      s.rx = s'.rx ∧ p.push = p'.push ∧ s.tx = s'.tx ∧ p.start = p'.start ∧ p.next = p'.next :=
  ⟨calling State.reset [pushCall 0x7E], calling State.reset [pushCall 0x7E, nextCall], _, _, _, _, _, _,
    rfl, rfl, rfl, rfl, rfl, rfl, rfl, rfl, rfl, rfl⟩

/-- `b * 256` equal to `RX_CAP`, and above it. -/
theorem witness_LengthMsbLoadsOrRejects :
    (0x01 : Byte).toNat * 256 ≤ (rxAt 256 .receivingLengthMsb 0 0 0).rx.cap.toNat ∧
    (rxAt 255 .receivingLengthMsb 0 0 0).rx.cap.toNat < (0x01 : Byte).toNat * 256 := by decide

/-- V-RX7 and V-RX8: the declared length is `RX_CAP`, and one more. -/
theorem witness_LengthLsbLoadsOrRejects :
    (rxAt 300 .receivingLengthLsb 0 256 0).rx.remaining.toNat % 256 = 0 ∧
    (rxAt 300 .receivingLengthLsb 0 256 0).rx.remaining.toNat + (0x2C : Byte).toNat
      ≤ (rxAt 300 .receivingLengthLsb 0 256 0).rx.cap.toNat ∧
    (rxAt 300 .receivingLengthLsb 0 256 0).rx.cap.toNat
      < (rxAt 300 .receivingLengthLsb 0 256 0).rx.remaining.toNat + (0x2D : Byte).toNat := by decide

/-- The last index of the buffer, with one byte to come. -/
theorem witness_DataStoresOneByte :
    (rxAt 8 .receivingData 7 1 0).rx.cursor.toNat < (rxAt 8 .receivingData 7 1 0).rx.cap.toNat ∧
    1 ≤ (rxAt 8 .receivingData 7 1 0).rx.remaining.toNat := by decide

theorem witness_DataOutsideBufferFaults :
    (rxAt 8 .receivingData 8 1 0).rx.cap.toNat ≤ (rxAt 8 .receivingData 8 1 0).rx.cursor.toNat := by decide

/-- V-RX14 and V-RX15. -/
theorem witness_CksumAcceptsOrRejects :
    (0x0D : Byte).toNat = 255 - (rxAt 8 .receivingChecksum 4 0 0xF2).rx.checksum.toNat ∧
    (0x0C : Byte).toNat ≠ 255 - (rxAt 8 .receivingChecksum 4 0 0xF2).rx.checksum.toNat := by decide

/-- A payload of `RX_CAP` bytes with a right and with a wrong checksum byte, and the first and the last of the pushes
before it. -/
theorem witness_AttemptTakesDeclaredLength :
    (rxAt 2 .waitingForDelimiter 0 0 0).rx.AtReset ∧
    [(0x7D : Byte), 0x84].length = (0x00 : Byte).toNat * 256 + (0x02 : Byte).toNat ∧
    [(0x7D : Byte), 0x84].length ≤ (rxAt 2 .waitingForDelimiter 0 0 0).rx.cap.toNat ∧
    (calling (rxAt 2 .waitingForDelimiter 0 0 0) (feed [0x7E, 0x00, 0x02, 0x7D, 0x84, 0xFE])).input
      = feed ([delimiter, 0x00, 0x02] ++ [0x7D, 0x84] ++ [0xFE]) ++ [] ∧
    (0xFE : Byte) = 0xFF - payloadSum [0x7D, 0x84] ∧ (0xFF : Byte) ≠ 0xFF - payloadSum [0x7D, 0x84] ∧
    1 ≤ 1 ∧ 5 ≤ [(0x7D : Byte), 0x84].length + 3 :=
  ⟨⟨rfl, rfl, rfl, rfl⟩, by decide, by decide, rfl, by decide, by decide, by decide, by decide⟩

/-- V-RX21 and V-RX8: over the capacity by the high byte alone, and only by the low byte. -/
theorem witness_OversizeAttemptIsRejected :
    (rxAt 255 .waitingForDelimiter 0 0 0).rx.AtReset ∧
    (calling (rxAt 255 .waitingForDelimiter 0 0 0) (feed [0x7E, 0x01, 0x00])).input
      = feed [delimiter, 0x01, 0x00] ++ [] ∧
    (rxAt 255 .waitingForDelimiter 0 0 0).rx.cap.toNat < (0x01 : Byte).toNat * 256 ∧
    (rxAt 300 .waitingForDelimiter 0 0 0).rx.AtReset ∧
    (0x01 : Byte).toNat * 256 ≤ (rxAt 300 .waitingForDelimiter 0 0 0).rx.cap.toNat ∧
    (rxAt 300 .waitingForDelimiter 0 0 0).rx.cap.toNat < (0x01 : Byte).toNat * 256 + (0x2D : Byte).toNat :=
  ⟨⟨rfl, rfl, rfl, rfl⟩, rfl, by decide, ⟨rfl, rfl, rfl, rfl⟩, by decide, by decide⟩

/-- The empty payload with `RX_CAP = 0` (V-S10), and a payload of `RX_CAP` bytes. -/
theorem witness_RoundTripOfFrame :
    (rxAt 0 .waitingForDelimiter 0 0 0).rx.AtReset ∧
    ([] : List Byte).length ≤ (rxAt 0 .waitingForDelimiter 0 0 0).rx.cap.toNat ∧
    (calling (rxAt 0 .waitingForDelimiter 0 0 0) (feed [0x7E, 0x00, 0x00, 0xFF])).input = feed (frame []) ++ [] ∧
    (rxAt 1 .waitingForDelimiter 0 0 0).rx.AtReset ∧
    [(0x7E : Byte)].length ≤ (rxAt 1 .waitingForDelimiter 0 0 0).rx.cap.toNat ∧
    (calling (rxAt 1 .waitingForDelimiter 0 0 0) (feed [0x7E, 0x00, 0x01, 0x7E, 0x81])).input
      = feed (frame [0x7E]) ++ [] :=
  ⟨⟨rfl, rfl, rfl, rfl⟩, by decide, by decide, ⟨rfl, rfl, rfl, rfl⟩, by decide, by decide⟩

/-- The lowest bit of the first payload byte and the highest bit of the checksum byte. -/
theorem witness_OneFlippedBitIsRejected :
    (rxAt 1 .waitingForDelimiter 0 0 0).rx.AtReset ∧
    [(0x7E : Byte)].length ≤ (rxAt 1 .waitingForDelimiter 0 0 0).rx.cap.toNat ∧
    (frame [0x7E])[3]? = some 0x7E ∧ (frame [0x7E])[4]? = some 0x81 ∧ 3 ≤ 3 ∧ 0 < 8 ∧ 7 < 8 ∧
    (calling (rxAt 1 .waitingForDelimiter 0 0 0) (feed [0x7E, 0x00, 0x01, 0x7F, 0x81])).input
      = feed ((frame [0x7E]).set 3 (0x7E ^^^ BitVec.ofNat 8 (2 ^ 0))) ++ [] ∧
    (calling (rxAt 1 .waitingForDelimiter 0 0 0) (feed [0x7E, 0x00, 0x01, 0x7E, 0x01])).input
      = feed ((frame [0x7E]).set 4 (0x81 ^^^ BitVec.ofNat 8 (2 ^ 7))) ++ [] :=
  ⟨⟨rfl, rfl, rfl, rfl⟩, by decide, by decide, by decide, by decide, by decide, by decide, by decide, by decide⟩

/-- A step that reports, and two receivers that differ in a buffer byte. -/
theorem witness_CompletedAttemptLeavesFreshReceiver :
    (∃ s t : State, step s = .next t ∧ t.out.rxStatus ≠ .none) ∧
    (∃ (s s' : State) (bytes : List Byte) (rest rest' : List Action),
      s.rx.Inv ∧ s'.rx.Inv ∧ s.rx.SameButBuf s'.rx ∧ s.rx ≠ s'.rx ∧
      s.input = feed bytes ++ rest ∧ s'.input = feed bytes ++ rest' ∧ 1 ≤ bytes.length) :=
  ⟨⟨calling (rxAt 8 .receivingChecksum 4 0 0xF2) [pushCall 0x0D], _, rfl, by decide⟩,
    ⟨calling (holding (rxAt 8 .waitingForDelimiter 0 0 0) [(0, 1)]) [pushCall 0x7E],
      calling (holding (rxAt 8 .waitingForDelimiter 0 0 0) [(0, 2)]) [pushCall 0x7E], [0x7E], [], [],
      ⟨by decide, rfl, rfl, rfl⟩, ⟨by decide, rfl, rfl, rfl⟩, ⟨rfl, rfl, rfl, rfl, rfl⟩, by decide,
      rfl, rfl, by decide⟩⟩

/-- Inside an attempt, one step in which the other unit works. -/
theorem witness_ReceiverHoldsBetweenPushes :
    ∃ s t : State, s.rx.state = .receivingData ∧
      (∀ a ∈ s.input.take 1, a.pushes = false ∧ a.resets = false) ∧ runsTo 1 s t :=
  ⟨calling (rxAt 8 .receivingData 2 2 0x5A) [serializeCall 4], _, rfl, by decide, rfl⟩

/-- A window without a `push`, and three pushes after an accepted frame. -/
theorem witness_FrameBytesSurviveThreePushes :
    (∃ s t : State, runsTo 1 s t ∧ s.FrameReadInWindow 1) ∧
    (∃ s t : State, runsTo 3 s t ∧ s.out.rxStatus = .frameAccepted ∧ s.rx.AtReset ∧
      (s.input.take 3).countP Action.pushes = 3) :=
  ⟨⟨calling (rxAt 8 .waitingForDelimiter 0 0 0) [.readBuf 0], _, rfl, by simp [State.FrameReadInWindow, calling, Action.pushes]⟩,
    ⟨{ calling (rxAt 8 .waitingForDelimiter 0 0 0) (feed [0x7E, 0x00, 0x01]) with
        out := { Outputs.quiet with rxStatus := .frameAccepted } }, _, rfl, rfl, ⟨rfl, rfl, rfl, rfl⟩, by decide⟩⟩

/-- `L = TX_CAP`, and one more. -/
theorem witness_SerializeStartsFreshSequence :
    (8 : Half).toNat ≤ (txAt 8 .txIdle 0 0 0 []).tx.cap.toNat ∧
    (txAt 8 .txIdle 0 0 0 []).tx.cap.toNat < (9 : Half).toNat := by decide

theorem witness_DataByteIsEmittedAndSummed :
    (txAt 8 .txData 7 0 8 [(7, 0x4B)]).tx.index.toNat < (txAt 8 .txData 7 0 8 [(7, 0x4B)]).tx.cap.toNat := by decide

theorem witness_DataByteOutsidePayloadFaults :
    (txAt 8 .txData 8 0 8 []).tx.cap.toNat ≤ (txAt 8 .txData 8 0 8 []).tx.index.toNat := by decide

/-- A payload of `TX_CAP` bytes and one call past the end; and the empty payload. -/
theorem witness_SequenceIsTheFrame :
    (∃ s : State, (2 : Half).toNat ≤ s.tx.cap.toNat ∧
      s.input = serializeCall 2 :: (drain ((2 : Half).toNat + 4 + 1) ++ []) ∧ 5 < (2 : Half).toNat + 4 ∧ 0 < 1) ∧
    (∃ s : State, (0 : Half).toNat ≤ s.tx.cap.toNat ∧
      s.input = serializeCall 0 :: (drain ((0 : Half).toNat + 4 + 0) ++ [])) :=
  ⟨⟨calling (txAt 2 .txIdle 0 0 0 [(0, 1), (1, 2)]) (serializeCall 2 :: drain 7), by decide, by decide, by decide, by decide⟩,
    ⟨calling (txAt 0 .txIdle 0 0 0 []) (serializeCall 0 :: drain 4), by decide, by decide⟩⟩

/-- One machine idle, the other in the middle of a sequence. -/
theorem witness_RestartForgetsEarlierSequence :
    ∃ s s' t t' : State, s.tx ≠ s'.tx ∧ s.tx.payload = s'.tx.payload ∧ s.tx.draw = s'.tx.draw ∧
      s.tx.cap = s'.tx.cap ∧ exec (.txStart 4) s = .next t ∧ exec (.txStart 4) s' = .next t' :=
  ⟨txAt 8 .txIdle 0 0 0 [], txAt 8 .txData 3 0xA8 5 [], _, _, by decide, rfl, rfl, rfl, rfl, rfl⟩

/-- One byte emitted of three: the byte at the index, the last one, and one that is emitted already. -/
theorem witness_ChangedPayloadByteIsEmitted :
    ∃ s : State, s.tx.phase = .txData ∧ s.tx.index.toNat < s.tx.len.toNat ∧ s.tx.len.toNat ≤ s.tx.cap.toNat ∧
      s.input = drain (s.tx.len.toNat - s.tx.index.toNat + 1) ++ [] ∧
      s.tx.index.toNat + 0 = 1 ∧ s.tx.index.toNat + 1 = 2 ∧ s.tx.index.toNat + 1 < s.tx.len.toNat ∧
      0 < s.tx.index.toNat :=
  ⟨calling (txAt 3 .txData 1 0x08 3 [(0, 0x08), (1, 0x52), (2, 0x4E)]) (drain 3), rfl, by decide, by decide, rfl,
    by decide, by decide, by decide, by decide⟩

/-- The last byte of the sequence, and commands that just fit. -/
theorem witness_WriteIntoSequenceIsRefused :
    ((calling (txAt 5 .txData 1 0 5 []) [.writePayload 4 0x55]).input = .writePayload 4 0x55 :: [] ∧
      (4 : Half).toNat < (txAt 5 .txData 1 0 5 []).tx.cap.toNat ∧ (txAt 5 .txData 1 0 5 []).tx.phase ≠ .txIdle ∧
      (4 : Half).toNat < (txAt 5 .txData 1 0 5 []).tx.len.toNat) ∧
    ((if (AtCommand.mk 0x52 0x4E 0x4A (some 0x4B)).parameter.isSome then 5 else 4)
        ≤ (txAt 5 .txChecksum 1 0 1 []).tx.cap.toNat ∧
      (txAt 5 .txChecksum 1 0 1 []).tx.phase ≠ .txIdle ∧ (txAt 5 .txChecksum 1 0 1 []).tx.len ≠ 0) ∧
    (14 + (TransmitRequest.withDefaults 0 []).payload.length ≤ (txAt 14 .txDelimiter 0 0 1 []).tx.cap.toNat ∧
      (txAt 14 .txDelimiter 0 0 1 []).tx.phase ≠ .txIdle ∧ (txAt 14 .txDelimiter 0 0 1 []).tx.len ≠ 0) := by decide

/-- In the middle of a sequence, a write past its payload; and a machine with nothing more to do. -/
theorem witness_SequenceBytesAreStable :
    (∃ s t : State, step s = .next t ∧ s.tx.phase ≠ .txIdle ∧ t.out.result ≠ some .bufferTooSmall ∧
      0 < s.tx.len.toNat) ∧
    (∃ s t : State, s.PayloadStable ∧ step s = .next t ∧ s.tx.phase ≠ .txIdle ∧ 0 < s.tx.len.toNat) := by
  refine ⟨⟨calling (txAt 8 .txData 1 0 5 []) [.writePayload 5 0x55], _, rfl, by decide, by decide, by decide⟩,
    ⟨txAt 8 .txData 1 0 5 [], _, fun k t h a ha => ?_, rfl, by decide, by decide⟩⟩
  have hin : ∀ (k : Nat) (s t : State), s.input = [] → runsTo k s t → t.input = [] := by
    intro k
    induction k with
    | zero => intro s t hs h; rw [runsTo_zero] at h; rw [← h, hs]
    | succ k ih =>
      intro s t hs h
      rw [runsTo_succ] at h
      obtain ⟨u, hu, h⟩ := h
      exact ih u t (by rw [(step_keeps_params hu).2.2, hs]; rfl) h
  rw [hin k _ t rfl h] at ha
  cases ha

/-- In the middle of an attempt with one byte stored. -/
theorem witness_StepKeepsInvariant :
    ∃ s t : State, s.Inv ∧ s.rx.state = .receivingData ∧ step s = .next t :=
  ⟨calling (holding (rxAt 8 .receivingData 1 7 0x08) [(0, 0x08)]) [pushCall 0x52], _,
    ⟨⟨by decide, by decide, by decide, by decide⟩, ⟨by decide, by decide, trivial⟩, ⟨rfl, rfl⟩, ⟨rfl, rfl⟩⟩, rfl, rfl⟩

/-- In the middle of a sequence with one byte emitted: a `next()`, and a write past the sequence's payload. -/
theorem witness_StepKeepsTransmitSum :
    (∃ s t : State, s.tx.Inv ∧ s.tx.SumInv ∧ s.tx.phase = .txData ∧ step s = .next t ∧
      t.out.result ≠ some .bufferTooSmall) ∧
    (∃ s t : State, s.tx.Inv ∧ s.tx.SumInv ∧ s.tx.phase = .txData ∧ step s = .next t ∧
      t.tx.payload ≠ s.tx.payload ∧ t.out.result ≠ some .bufferTooSmall) := by
  refine ⟨⟨calling (txAt 8 .txData 1 0x08 2 [(0, 0x08), (1, 0x52)]) [nextCall], _,
      ⟨by decide, by decide, ?_⟩, ?_, rfl, rfl, by decide⟩,
    ⟨calling (txAt 8 .txData 1 0x08 2 [(0, 0x08), (1, 0x52)]) [.writePayload 2 0x55], _,
      ⟨by decide, by decide, ?_⟩, ?_, rfl, rfl, by decide, by decide⟩⟩
  · show (1 : Half) < 2
    decide
  · show (0x08 : Byte) = payloadSum _
    decide
  · show (1 : Half) < 2
    decide
  · show (0x08 : Byte) = payloadSum _
    decide

/-- The longest payload, with both units called at once. -/
theorem witness_BlockNeverStops :
    ∃ (s : State) (p : Strobes) (rest : List Action), s.Inv ∧ s.LenFits ∧ s.input = .strobe p :: rest ∧
      p.push = some 0x52 ∧ p.start = some 8 :=
  ⟨calling (holding (rxAt 8 .receivingData 1 7 0x08) [(0, 0x08)])
      [.strobe { reset := false, push := some 0x52, start := some 8, next := true }], _, _,
    ⟨⟨by decide, by decide, by decide, by decide⟩, ⟨by decide, by decide, trivial⟩, ⟨rfl, rfl⟩, ⟨rfl, rfl⟩⟩,
    by simp [State.LenFits, calling, Action.lenFits, holding, rxAt, State.resetWith], rfl, rfl, rfl⟩

/-- Steps and operations that write one buffer and keep the other. -/
theorem witness_OnlyOwnersWriteBuffers :
    (∃ s t : State, step s = .next t ∧ (∀ a, s.input.head? = some a → a.pushes = false) ∧
      t.tx.payload ≠ s.tx.payload) ∧
    (∃ s t : State, step s = .next t ∧ (∀ a, s.input.head? = some a → a.writesPayload = false) ∧
      t.rx.buf ≠ s.rx.buf) ∧
    (∃ t, exec (.atCommand ⟨0x52, 0x4E, 0x4A, none⟩) (rxAt 8 .waitingForDelimiter 0 0 0) = .next t) ∧
    (∀ b, Instr.atCommand ⟨0x52, 0x4E, 0x4A, none⟩ ≠ .rxData b) ∧
    (∃ t, exec (.rxData 0x4E) (rxAt 8 .receivingData 2 2 0x5A) = .next t) ∧
    (∀ m, Instr.rxData 0x4E ≠ .atCommand m) ∧ (∀ m, Instr.rxData 0x4E ≠ .transmitRequest m) :=
  ⟨⟨calling State.reset [.message [0x08, 0x52, 0x4E, 0x4A]], _, rfl, by simp [calling, Action.pushes], by decide⟩,
    ⟨calling (rxAt 8 .receivingData 2 2 0x5A) [pushCall 0x4E], _, rfl,
      by simp [calling, pushCall, Action.writesPayload], by decide⟩,
    ⟨_, rfl⟩, by simp, ⟨_, rfl⟩, by simp, by simp⟩

/-- Buffers of exactly the required sizes. -/
theorem witness_AtCommandIsBuilt :
    (AtCommand.mk 0x52 0x4E 0x4A none).parameter = none ∧ 4 ≤ (txAt 4 .txIdle 0 0 0 []).tx.cap.toNat ∧
    ((txAt 4 .txIdle 4 0 4 []).tx.phase = .txIdle ∨ (txAt 4 .txIdle 4 0 4 []).tx.len = 0) ∧
    (AtCommand.mk 0x52 0x4E 0x4A (some 0x4B)).parameter = some 0x4B ∧
    5 ≤ (txAt 5 .txIdle 0 0 0 []).tx.cap.toNat ∧
    ((txAt 5 .txDelimiter 0 0 0 []).tx.phase = .txIdle ∨ (txAt 5 .txDelimiter 0 0 0 []).tx.len = 0) := by decide

theorem witness_TransmitRequestIsBuilt :
    14 + (TransmitRequest.withDefaults 0 [0x54]).payload.length ≤ (txAt 15 .txIdle 0 0 0 []).tx.cap.toNat ∧
    ((txAt 15 .txIdle 0 0 0 []).tx.phase = .txIdle ∨ (txAt 15 .txIdle 0 0 0 []).tx.len = 0) := by decide

/-- Buffers one byte short. -/
theorem witness_BufferTooSmallIsReturned :
    ((txAt 4 .txIdle 0 0 0 []).tx.cap.toNat
      < if (AtCommand.mk 0x52 0x4E 0x4A (some 0x4B)).parameter.isSome then 5 else 4) ∧
    ((txAt 3 .txIdle 0 0 0 []).tx.cap.toNat
      < if (AtCommand.mk 0x52 0x4E 0x4A none).parameter.isSome then 5 else 4) ∧
    (txAt 13 .txIdle 0 0 0 []).tx.cap.toNat < 14 + (TransmitRequest.withDefaults 0 []).payload.length := by decide

/-- Lengths 4 and 7, another identifier, status 5, and status 4 with and without the data byte. -/
theorem witness_AtResponseIsParsed :
    [(0x88 : Byte), 0x52, 0x4E, 0x4A].length < 5 ∧ 6 < [(0x88 : Byte), 0x52, 0x4E, 0x4A, 0, 0, 0].length ∧
    (5 ≤ [(0x90 : Byte), 0x52, 0x4E, 0x4A, 0].length ∧ [(0x90 : Byte), 0x52, 0x4E, 0x4A, 0].length ≤ 6 ∧
      [(0x90 : Byte), 0x52, 0x4E, 0x4A, 0][0]? ≠ some 0x88) ∧
    (5 ≤ [(0x88 : Byte), 0x52, 0x4E, 0x4A, 5].length ∧ [(0x88 : Byte), 0x52, 0x4E, 0x4A, 5].length ≤ 6 ∧
      [(0x88 : Byte), 0x52, 0x4E, 0x4A, 5][0]? = some 0x88 ∧ [(0x88 : Byte), 0x52, 0x4E, 0x4A, 5][4]? = some 5 ∧
      4 < (5 : Byte).toNat) ∧
    (5 ≤ [(0x88 : Byte), 0x52, 0x4E, 0x4A, 4, 0x2A].length ∧ [(0x88 : Byte), 0x52, 0x4E, 0x4A, 4, 0x2A].length ≤ 6 ∧
      [(0x88 : Byte), 0x52, 0x4E, 0x4A, 4, 0x2A][0]? = some 0x88 ∧
      [(0x88 : Byte), 0x52, 0x4E, 0x4A, 4, 0x2A][4]? = some 4 ∧ (4 : Byte).toNat ≤ 4) := by decide

/-- Length 11, another identifier, and length 12. -/
theorem witness_ZigbeePacketIsParsed :
    [(0x90 : Byte), 0, 0, 0, 0, 0, 0, 0, 0, 0, 0].length < 12 ∧
    (12 ≤ [(0x88 : Byte), 0, 0, 0, 0, 0, 0, 0, 0, 0, 0, 0].length ∧
      [(0x88 : Byte), 0, 0, 0, 0, 0, 0, 0, 0, 0, 0, 0][0]? ≠ some 0x90) ∧
    (12 ≤ [(0x90 : Byte), 0, 0, 0, 0, 0, 0, 0, 0, 0, 0, 0x43].length ∧
      [(0x90 : Byte), 0, 0, 0, 0, 0, 0, 0, 0, 0, 0, 0x43][0]? = some 0x90 ∧
      [(0x90 : Byte), 0, 0, 0, 0, 0, 0, 0, 0, 0, 0, 0x43][11]? = some 0x43) := by decide

/-- A payload of each variant, one of neither, and an empty one. -/
theorem witness_ConsumerProbesBeforeParse :
    (1 : Half).toNat ≤ (rxAt 8 .waitingForDelimiter 0 0 0).rx.cap.toNat ∧
    (calling (rxAt 8 .waitingForDelimiter 0 0 0) [.receive 1]).input = .receive 1 :: [] ∧
    ((holding (rxAt 8 .waitingForDelimiter 0 0 0) [(0, 0x88)]).rx.bytes 1).head? = some 0x88 ∧
    ((holding (rxAt 8 .waitingForDelimiter 0 0 0) [(0, 0x90)]).rx.bytes 1).head? = some 0x90 ∧
    (((holding (rxAt 8 .waitingForDelimiter 0 0 0) [(0, 0x08)]).rx.bytes 1).head? ≠ some 0x88 ∧
      ((holding (rxAt 8 .waitingForDelimiter 0 0 0) [(0, 0x08)]).rx.bytes 1).head? ≠ some 0x90) ∧
    ((rxAt 8 .waitingForDelimiter 0 0 0).rx.bytes 0).head? ≠ some 0x88 := by decide

/-- The last index of the buffer, and the one past it. -/
theorem witness_ConsumerReadHasNoSideEffect :
    (calling (rxAt 8 .waitingForDelimiter 0 0 0) [.readBuf 7]).input = .readBuf 7 :: [] ∧
    (7 : Half).toNat < (rxAt 8 .waitingForDelimiter 0 0 0).rx.cap.toNat ∧
    (rxAt 8 .waitingForDelimiter 0 0 0).rx.cap.toNat ≤ (8 : Half).toNat := by decide

/-- The last index of the buffer with no sequence in progress, the first past a sequence's payload, and the one past the
buffer. -/
theorem witness_OwnerWriteChangesOneByte :
    (calling (txAt 8 .txIdle 8 0 8 []) [.writePayload 7 0x4E]).input = .writePayload 7 0x4E :: [] ∧
    (7 : Half).toNat < (txAt 8 .txIdle 8 0 8 []).tx.cap.toNat ∧
    ((txAt 8 .txIdle 8 0 8 []).tx.phase = .txIdle ∨ (txAt 8 .txIdle 8 0 8 []).tx.len.toNat ≤ (7 : Half).toNat) ∧
    ((txAt 8 .txData 0 0 7 []).tx.phase = .txIdle ∨ (txAt 8 .txData 0 0 7 []).tx.len.toNat ≤ (7 : Half).toNat) ∧
    (txAt 8 .txIdle 0 0 0 []).tx.cap.toNat ≤ (8 : Half).toNat := by decide

end Sys2Proof.Tests
end

section
/-! Proofs of family 00_scope: a step runs the operation it selects (O8), and only its owner writes a buffer (O40). -/

namespace Sys2Proof.Machine

/-! ## A step runs the operation it selects (R76, R77, R86) -/

/-- A message call whose bytes select an operation runs it (R86). -/
theorem callMessage_decoded {bytes : List Byte} {i : Instr} (h : decode (.payload bytes) = .ok i) (s : State) :
    callMessage bytes s = exec i s := by
  simp only [callMessage, h]

/-- Settles O8: the call is taken off, and of the one operation it selects only `exec` is left to run. -/
theorem stepRunsDecodedInstruction : Obligations.StepRunsDecodedInstruction := by
  intro s rest i
  refine ⟨fun b hin hd => ?push, fun hin hd => ?next, fun len hin hd => ?serialize, fun hin hd => ?reset,
    fun bytes hin hd => ?message⟩ <;> rw [step_cons hin]
  case push | next | serialize | reset => exact runSelectors_one hd (s.begin rest)
  case message => exact callMessage_decoded hd (s.begin rest)

/-! ## Who writes which buffer (R28, R34, R54, R55) -/

/-- `build` writes the payload buffer and leaves the receiver alone (R151). -/
theorem State.build_keeps_rx {s t : State} {required : Nat} {layout : List Byte}
    (h : s.build required layout = .next t) : t.rx = s.rx := by
  obtain ⟨-, rfl⟩ | ⟨-, -, rfl⟩ := State.build_next h <;> rfl

/-- What an operation leaves of the buffers: all but RX_DATA keep the scratch buffer (R28), all but the two commands'
`build` the payload buffer and its draw count (R34, R151). -/
theorem exec_keeps_buffers {i : Instr} {s t : State} (h : exec i s = .next t) :
    ((∀ b, i ≠ .rxData b) → t.rx.buf = s.rx.buf) ∧
    ((∀ m, i ≠ .atCommand m) → (∀ m, i ≠ .transmitRequest m) →
      t.tx.payload = s.tx.payload ∧ t.tx.draw = s.tx.draw) := by
  cases i with
  | rxData b =>
    simp only [exec, execRxData] at h
    split at h <;> cases h
    exact ⟨fun hi => absurd rfl (hi b), fun _ _ => ⟨rfl, rfl⟩⟩
  | atCommand m => exact ⟨fun _ => congrArg Rx.buf (State.build_keeps_rx h), fun hm => absurd rfl (hm m)⟩
  | transmitRequest m => exact ⟨fun _ => congrArg Rx.buf (State.build_keeps_rx h), fun _ hm => absurd rfl (hm m)⟩
  | rxLenMsb b =>
    simp only [exec, execRxLenMsb] at h
    split at h <;> cases h <;> exact ⟨fun _ => rfl, fun _ _ => ⟨rfl, rfl⟩⟩
  | rxLenLsb b =>
    simp only [exec, execRxLenLsb] at h
    split at h <;> cases h <;> exact ⟨fun _ => rfl, fun _ _ => ⟨rfl, rfl⟩⟩
  | rxCksum b =>
    simp only [exec, execRxCksum] at h
    split at h <;> cases h <;> exact ⟨fun _ => rfl, fun _ _ => ⟨rfl, rfl⟩⟩
  | txData =>
    simp only [exec, execTxData] at h
    split at h <;> cases h
    exact ⟨fun _ => rfl, fun _ _ => ⟨rfl, rfl⟩⟩
  | txStart len =>
    simp only [exec, execTxStart] at h
    split at h <;> cases h
    exact ⟨fun _ => rfl, fun _ _ => ⟨rfl, rfl⟩⟩
  | rxWaitDiscard | rxWaitSync | txIdle | txDelim | txLenMsb | txLenLsb | txCksum | reset | atCommandResponse
    | zigbeeReceivePacket =>
    cases h
    exact ⟨fun _ => rfl, fun _ _ => ⟨rfl, rfl⟩⟩

/-- Strobes without a push that takes place keep the scratch buffer: a `reset` clears registers alone (R197). -/
theorem rxOfStrobes_buf {p : Strobes} {r r' : Rx} {c : RxStatus} {n : Half}
    (hp : (Action.strobe p).pushes = false) (h : rxOfStrobes p r = some (r', c, n)) : r'.buf = r.buf := by
  unfold rxOfStrobes at h
  split at h
  · cases h; rfl
  · rename_i hreset
    split at h
    · rename_i b hpush
      simp [Action.pushes, hreset, hpush] at hp
    · cases h; rfl

/-- A step whose call holds no push that takes place keeps the scratch buffer (R28, R54). -/
theorem step_keeps_buf {s t : State} (h : step s = .next t)
    (hp : ∀ a, s.input.head? = some a → a.pushes = false) : t.rx.buf = s.rx.buf := by
  obtain ⟨p, rest, r, c, n, x, v, hin, hr, -, rfl⟩ | ⟨-, hrx, -⟩ := step_cases h
  · exact rxOfStrobes_buf (hp (.strobe p) (by rw [hin]; rfl)) hr
  · exact congrArg Rx.buf hrx

/-- A step whose call is neither an owner's write nor a command to build keeps every payload byte (R34, R55). -/
theorem step_keeps_payload {s t : State} (h : step s = .next t)
    (hw : ∀ a, s.input.head? = some a → a.writesPayload = false) (n : Nat) : t.tx.read n = s.tx.read n := by
  cases hin : s.input with
  | nil => simp only [step, hin] at h; cases h; rfl
  | cons a rest =>
    by_cases ha : ∃ p, a = .strobe p
    · obtain ⟨p, rfl⟩ := ha
      obtain ⟨r, c, k, x, v, -, hx, rfl⟩ := (step_strobe_next hin).1 h
      obtain ⟨hpayload, hdraw⟩ := txOfStrobes_payload hx
      exact Tx.read_congr hpayload hdraw n
    · rw [step_cons hin] at h
      exact (perform_other_reads (fun p hp => ha ⟨p, hp⟩) h).1 (hw a (by rw [hin]; rfl)) n

/-- Settles O40: the frames of a step and of an operation, read through `Rx.read` and `Tx.read`. -/
theorem onlyOwnersWriteBuffers : Obligations.OnlyOwnersWriteBuffers := by
  refine ⟨fun s t h => ?step, fun i s t h => ?exec⟩
  case step =>
    obtain ⟨hrx, htx, hinput⟩ := step_keeps_params h
    exact ⟨hrx, htx, hinput, fun hp => Rx.read_congr (step_keeps_buf h hp), step_keeps_payload h⟩
  case exec =>
    obtain ⟨hrx, htx, hinput⟩ := exec_keeps_params h
    obtain ⟨hbuf, hpay⟩ := exec_keeps_buffers h
    refine ⟨hrx, htx, hinput, fun hi => Rx.read_congr (hbuf hi), fun hat htr => ?_⟩
    obtain ⟨hpayload, hdraw⟩ := hpay hat htr
    exact Tx.read_congr hpayload hdraw

end Sys2Proof.Machine
end

section
/-! Proofs of family 10_state: the invariants of both units hold at reset and every step keeps them (O36, O37, O38), a
sequence's bytes are stable (O52), the owner's write (O49), and what selects or changes nothing (O6, O9, O35). -/

namespace Sys2Proof.Machine

/-! ## The canonical form of a buffer under one write (R50, R53) -/

theorem Memory.Within.write {m : Memory} {cap : Half} {a : Nat} (h : Memory.Within m cap) (v : Byte)
    (ha : a < cap.toNat) : Memory.Within (Memory.write m a v) cap := by
  obtain ⟨hwf, hbelow⟩ := h
  exact ⟨Memory.wf_write a v hwf, Memory.below_write v hbelow ha⟩

/-- After a write at `n`, the bytes up to and with `n` are the earlier ones and the byte written. -/
theorem Rx.bytes_write_succ (r : Rx) (n : Nat) (v : Byte) :
    Rx.bytes { r with buf := Memory.write r.buf n v } (n + 1) = r.bytes n ++ [v] := by
  rw [Rx.bytes_succ, Rx.bytes_write_ge r v le_rfl, Rx.read_write, if_pos rfl]

/-! ## The receiver keeps R27 -/

/-- All that a push can do to the receiver (R76): return it to its reset values, or one of the five moves that go on. -/
theorem rxStep_cases {r r' : Rx} {b : Byte} {c : RxStatus} {n : Half} (h : rxStep r b = some (r', c, n)) :
    r' = r.resetCounters ∨ r' = r ∨
    (r.state = .waitingForDelimiter ∧ r' = { r with state := .receivingLengthMsb }) ∨
    (r.state = .receivingLengthMsb ∧ (lengthHigh b).toNat ≤ r.cap.toNat ∧
      r' = { r with remaining := lengthHigh b, state := .receivingLengthLsb }) ∨
    (r.state = .receivingLengthLsb ∧ (lengthWithLow r.remaining b).toNat ≤ r.cap.toNat ∧
      r' = { r with
        remaining := lengthWithLow r.remaining b
        state := if lengthWithLow r.remaining b = 0 then .receivingChecksum else .receivingData }) ∨
    (r.state = .receivingData ∧ r.cursor.toNat < r.cap.toNat ∧
      r' = { r with
        buf := Memory.write r.buf r.cursor.toNat b
        cursor := r.cursor + 1
        checksum := addChecksum r.checksum b
        remaining := r.remaining - 1
        state := if 0 < r.remaining - 1 then .receivingData else .receivingChecksum }) := by
  cases hs : r.state <;> simp only [rxStep, hs] at h <;> split at h
  case waitingForDelimiter.isTrue => cases h; exact .inr (.inr (.inl ⟨rfl, rfl⟩))
  case waitingForDelimiter.isFalse => cases h; exact .inr (.inl rfl)
  case receivingLengthMsb.isFalse hc =>
    cases h
    rw [exceedsCap_iff] at hc
    exact .inr (.inr (.inr (.inl ⟨rfl, by omega, rfl⟩)))
  case receivingLengthLsb.isFalse hc =>
    cases h
    rw [exceedsCap_iff] at hc
    exact .inr (.inr (.inr (.inr (.inl ⟨rfl, by omega, rfl⟩))))
  case receivingData.isTrue hc =>
    cases h
    exact .inr (.inr (.inr (.inr (.inr ⟨rfl, hc, rfl⟩))))
  case receivingData.isFalse => cases h
  all_goals cases h; exact .inl rfl

/-- At reset the receiver waits with its registers clear (R26), which is its clause of R27. -/
theorem Rx.AtReset.inv {r : Rx} (h : r.AtReset) : r.Inv := by
  obtain ⟨hstate, hcursor, hremaining, hsum⟩ := h
  simp only [Rx.Inv, hstate]
  exact ⟨by rw [hcursor]; exact Nat.zero_le _, hcursor, hremaining, hsum⟩

theorem Rx.inv_resetCounters (r : Rx) : r.resetCounters.Inv :=
  Rx.AtReset.inv ⟨rfl, rfl, rfl, rfl⟩

/-- R104 starts the data or the checksum phase with an empty sum over no byte. -/
theorem Rx.inv_after_lsb {r : Rx} {n : Half} (hi : r.Inv) (hs : r.state = .receivingLengthLsb)
    (hn : n.toNat ≤ r.cap.toNat) :
    Rx.Inv { r with remaining := n, state := if n = 0 then .receivingChecksum else .receivingData } := by
  obtain ⟨hcap, hphase⟩ := hi
  simp only [hs] at hphase
  obtain ⟨hcursor, hsum, -, -⟩ := hphase
  refine ⟨hcap, ?_⟩
  have hempty : r.checksum = payloadSum (r.bytes r.cursor.toNat) := by rw [hsum, hcursor]; rfl
  by_cases h0 : n = 0
  · simp only [if_pos h0]
    exact ⟨h0, hempty⟩
  · simp only [if_neg h0]
    have hpos : n.toNat ≠ 0 := fun h => h0 (BitVec.eq_of_toNat_eq h)
    refine ⟨by omega, ?_, hempty⟩
    simpa [hcursor] using hn

/-- R105 moves one byte from `remaining` to `cursor` and folds it into the sum. -/
theorem Rx.inv_after_data {r : Rx} (b : Byte) (hi : r.Inv) (hs : r.state = .receivingData) :
    Rx.Inv { r with
      buf := Memory.write r.buf r.cursor.toNat b
      cursor := r.cursor + 1
      checksum := addChecksum r.checksum b
      remaining := r.remaining - 1
      state := if 0 < r.remaining - 1 then .receivingData else .receivingChecksum } := by
  obtain ⟨-, hphase⟩ := hi
  simp only [hs] at hphase
  obtain ⟨hpos, hfit, hsum⟩ := hphase
  have hcursor : (r.cursor + 1).toNat = r.cursor.toNat + 1 := by bv_omega
  have hleft : (r.remaining - 1).toNat = r.remaining.toNat - 1 := by bv_omega
  have hsum' : addChecksum r.checksum b = payloadSum
      (Rx.bytes { r with buf := Memory.write r.buf r.cursor.toNat b } (r.cursor + 1).toNat) := by
    rw [hcursor, Rx.bytes_write_succ, payloadSum_snoc, hsum]
  refine ⟨by bv_omega, ?_⟩
  by_cases hmore : 0 < r.remaining - 1
  · simp only [if_pos hmore]
    exact ⟨by bv_omega, by bv_omega, hsum'⟩
  · simp only [if_neg hmore]
    exact ⟨by bv_omega, hsum'⟩

theorem rxStep_keeps_inv {r r' : Rx} {b : Byte} {c : RxStatus} {n : Half} (hi : r.Inv)
    (h : rxStep r b = some (r', c, n)) : r'.Inv := by
  obtain rfl | rfl | ⟨hs, rfl⟩ | ⟨hs, hcap, rfl⟩ | ⟨hs, hcap, rfl⟩ | ⟨hs, -, rfl⟩ := rxStep_cases h
  · exact r.inv_resetCounters
  · exact hi
  · simpa only [Rx.Inv, hs] using hi
  · obtain ⟨hle, hphase⟩ := hi
    simp only [hs] at hphase
    obtain ⟨hcursor, -, hsum⟩ := hphase
    exact ⟨hle, hcursor, hsum, by rw [lengthHigh_toNat, Nat.mul_mod_left], hcap⟩
  · exact Rx.inv_after_lsb hi hs hcap
  · exact Rx.inv_after_data b hi hs

/-- A push writes the scratch buffer below its capacity alone (R53, R58). -/
theorem rxStep_keeps_within {r r' : Rx} {b : Byte} {c : RxStatus} {n : Half} (hw : Memory.Within r.buf r.cap)
    (h : rxStep r b = some (r', c, n)) : Memory.Within r'.buf r'.cap := by
  obtain rfl | rfl | ⟨-, rfl⟩ | ⟨-, -, rfl⟩ | ⟨-, -, rfl⟩ | ⟨-, hc, rfl⟩ := rxStep_cases h
  · exact hw
  · exact hw
  · exact hw
  · exact hw
  · exact hw
  · exact hw.write b hc

/-- All that the strobes of a step can do to the receiver. -/
theorem rxOfStrobes_cases {p : Strobes} {r r' : Rx} {c : RxStatus} {n : Half}
    (h : rxOfStrobes p r = some (r', c, n)) :
    r' = r.resetCounters ∨ r' = r ∨ ∃ b, rxStep r b = some (r', c, n) := by
  unfold rxOfStrobes at h
  split at h
  · cases h; exact .inl rfl
  split at h
  · exact .inr (.inr ⟨_, h⟩)
  · cases h; exact .inr (.inl rfl)

theorem rxOfStrobes_keeps_inv {p : Strobes} {r r' : Rx} {c : RxStatus} {n : Half} (hi : r.Inv)
    (h : rxOfStrobes p r = some (r', c, n)) : r'.Inv := by
  obtain rfl | rfl | ⟨b, hb⟩ := rxOfStrobes_cases h
  · exact r.inv_resetCounters
  · exact hi
  · exact rxStep_keeps_inv hi hb

theorem rxOfStrobes_keeps_within {p : Strobes} {r r' : Rx} {c : RxStatus} {n : Half}
    (hw : Memory.Within r.buf r.cap) (h : rxOfStrobes p r = some (r', c, n)) : Memory.Within r'.buf r'.cap := by
  obtain rfl | rfl | ⟨b, hb⟩ := rxOfStrobes_cases h
  · exact hw
  · exact hw
  · exact rxStep_keeps_within hw hb

/-! ## The serializer keeps R36 -/

/-- All that `next()` can do to the serializer (R77). -/
theorem txNext_cases {t t' : Tx} {v : Option Byte} (h : txNext t = some (t', v)) :
    (t.phase = .txIdle ∧ t' = t) ∨
    (t.phase = .txDelimiter ∧ t' = { t with phase := .txLengthMsb }) ∨
    (t.phase = .txLengthMsb ∧ t' = { t with phase := .txLengthLsb }) ∨
    (t.phase = .txLengthLsb ∧ t' = { t with phase := if t.len = 0 then .txChecksum else .txData }) ∨
    (t.phase = .txData ∧ t' = { t with
      sum := addChecksum t.sum (t.read t.index.toNat)
      index := t.index + 1
      phase := if t.index + 1 < t.len then .txData else .txChecksum }) ∨
    (t.phase = .txChecksum ∧ t' = { t with phase := .txIdle }) := by
  cases hp : t.phase <;> simp only [txNext, hp] at h
  case txData =>
    split at h <;> cases h
    exact .inr (.inr (.inr (.inr (.inl ⟨rfl, rfl⟩))))
  all_goals cases h; simp

/-- Within a sequence's payload the index steps without wrapping (R9). -/
theorem Tx.index_succ_toNat {t : Tx} (h : t.index < t.len) : (t.index + 1).toNat = t.index.toNat + 1 := by
  bv_omega

theorem txNext_keeps_inv {t t' : Tx} {v : Option Byte} (hi : t.Inv) (h : txNext t = some (t', v)) : t'.Inv := by
  obtain ⟨hindex, hlen, hphase⟩ := hi
  obtain ⟨hp, rfl⟩ | ⟨hp, rfl⟩ | ⟨hp, rfl⟩ | ⟨hp, rfl⟩ | ⟨hp, rfl⟩ | ⟨hp, rfl⟩ := txNext_cases h <;>
    simp only [hp] at hphase
  · exact ⟨hindex, hlen, by simp only [hp]⟩
  · exact ⟨hindex, hlen, hphase⟩
  · exact ⟨hindex, hlen, hphase⟩
  · obtain ⟨hzero, -⟩ := hphase
    refine ⟨hindex, hlen, ?_⟩
    by_cases hempty : t.len = 0
    · simp only [if_pos hempty]; rw [hzero, hempty]
    · simp only [if_neg hempty]; bv_omega
  · have hsucc := Tx.index_succ_toNat hphase
    refine ⟨by bv_omega, hlen, ?_⟩
    by_cases hmore : t.index + 1 < t.len
    · simp only [if_pos hmore]; exact hmore
    · simp only [if_neg hmore]; bv_omega
  · exact ⟨hindex, hlen, trivial⟩

/-- `next()` in TxData folds the byte it emits into the sum (R135); the header starts the sum over no byte. -/
theorem txNext_keeps_sumInv {t t' : Tx} {v : Option Byte} (hi : t.Inv) (hs : t.SumInv)
    (h : txNext t = some (t', v)) : t'.SumInv := by
  obtain ⟨-, -, hphase⟩ := hi
  obtain ⟨hp, rfl⟩ | ⟨hp, rfl⟩ | ⟨hp, rfl⟩ | ⟨hp, rfl⟩ | ⟨hp, rfl⟩ | ⟨hp, rfl⟩ := txNext_cases h <;>
    simp only [hp] at hphase
  · exact hs
  · trivial
  · trivial
  · obtain ⟨hindex, hsum⟩ := hphase
    have hnone : t.sum = payloadSum (t.bytes t.index.toNat) := by rw [hsum, hindex]; rfl
    by_cases hempty : t.len = 0
    · simp only [Tx.SumInv, if_pos hempty]; exact hnone
    · simp only [Tx.SumInv, if_neg hempty]; exact hnone
  · simp only [Tx.SumInv, hp] at hs
    have hsum : addChecksum t.sum (t.read t.index.toNat) = payloadSum (t.bytes (t.index + 1).toNat) := by
      rw [Tx.index_succ_toNat hphase, Tx.bytes_succ, payloadSum_snoc, hs]
    by_cases hmore : t.index + 1 < t.len
    · simp only [Tx.SumInv, if_pos hmore]; exact hsum
    · simp only [Tx.SumInv, if_neg hmore]; exact hsum
  · trivial

/-- All that the strobes of a step can do to the serializer. -/
theorem txOfStrobes_cases {p : Strobes} {t t' : Tx} {v : Option Byte} (h : txOfStrobes p t = some (t', v)) :
    t' = t.resetRegisters ∨ t' = t ∨ txNext t = some (t', v) ∨
    ∃ len, len ≤ t.cap ∧ t' = { t with len := len, index := 0, sum := 0, phase := .txDelimiter } := by
  unfold txOfStrobes at h
  split at h
  · cases h; exact .inl rfl
  split at h
  · split at h
    · rename_i hlen; cases h; exact .inr (.inr (.inr ⟨_, hlen, rfl⟩))
    · cases h
  split at h
  · exact .inr (.inr (.inl h))
  · cases h; exact .inr (.inl rfl)

/-- At reset the serializer is idle (R35), where R36 asks for the bounds alone. -/
theorem Tx.AtReset.inv {t : Tx} (h : t.AtReset) : t.Inv ∧ t.SumInv := by
  obtain ⟨hphase, hindex, -, hlen⟩ := h
  simp only [Tx.Inv, Tx.SumInv, hphase, hindex, hlen]
  exact ⟨⟨Nat.le_refl _, Nat.zero_le _, trivial⟩, trivial⟩

theorem Tx.inv_resetRegisters (t : Tx) : t.resetRegisters.Inv ∧ t.resetRegisters.SumInv :=
  Tx.AtReset.inv ⟨rfl, rfl, rfl, rfl⟩

theorem txOfStrobes_keeps_inv {p : Strobes} {t t' : Tx} {v : Option Byte} (hi : t.Inv)
    (h : txOfStrobes p t = some (t', v)) : t'.Inv := by
  obtain rfl | rfl | hn | ⟨len, hlen, rfl⟩ := txOfStrobes_cases h
  · exact t.inv_resetRegisters.1
  · exact hi
  · exact txNext_keeps_inv hi hn
  · exact ⟨Nat.zero_le _, hlen, rfl, rfl⟩

theorem txOfStrobes_keeps_sumInv {p : Strobes} {t t' : Tx} {v : Option Byte} (hi : t.Inv) (hs : t.SumInv)
    (h : txOfStrobes p t = some (t', v)) : t'.SumInv := by
  obtain rfl | rfl | hn | ⟨len, -, rfl⟩ := txOfStrobes_cases h
  · exact t.inv_resetRegisters.2
  · exact hs
  · exact txNext_keeps_sumInv hi hs hn
  · trivial

theorem Tx.SameRegs.inv {t u : Tx} (h : t.SameRegs u) (hi : u.Inv) : t.Inv := by
  obtain ⟨hphase, hindex, hsum, hlen, hcap, -⟩ := h
  simpa only [Tx.Inv, hphase, hindex, hsum, hlen, hcap] using hi

/-- The sum stays right while the registers and the bytes of the sequence in progress stay (R215). -/
theorem Tx.SameRegs.sumInv {t u : Tx} (h : t.SameRegs u) (hle : u.index ≤ u.len)
    (hread : u.phase ≠ .txIdle → ∀ a, a < u.len.toNat → t.read a = u.read a) (hs : u.SumInv) : t.SumInv := by
  obtain ⟨hphase, hindex, hsum, -, -, -⟩ := h
  have hbytes : u.phase ≠ .txIdle → t.bytes u.index.toNat = u.bytes u.index.toNat := fun hp =>
    List.map_congr_left fun a ha => hread hp a (by have := List.mem_range.mp ha; bv_omega)
  cases hp : u.phase <;> simp only [Tx.SumInv, hphase, hp, hindex, hsum] at hs ⊢
  case txData | txChecksum => rw [hbytes (by rw [hp]; decide)]; exact hs

/-! ## Every step keeps the invariants -/

/-- Settles O37: by the two units' steps side by side, or another agent's call, which keeps the registers. -/
theorem stepKeepsInvariant : Obligations.StepKeepsInvariant := by
  intro s t ⟨hrx, htx, hbuf, hpay⟩ h
  obtain ⟨-, hcap, -⟩ := step_keeps_params h
  obtain ⟨p, rest, r, c, n, x, v, -, hr, hx, rfl⟩ | ⟨-, hr, -, hx⟩ := step_cases h
  · obtain ⟨hpayload, -⟩ := txOfStrobes_payload hx
    refine ⟨rxOfStrobes_keeps_inv hrx hr, txOfStrobes_keeps_inv htx hx, rxOfStrobes_keeps_within hbuf hr, ?_⟩
    rw [hcap, State.emitted_tx, hpayload]
    exact hpay
  · have hwithin : Memory.Within t.tx.payload s.tx.cap := by
      obtain ⟨-, -, -, -, -, hkeep⟩ := hx
      exact hkeep hpay
    refine ⟨hr ▸ hrx, hx.inv htx, hr ▸ hbuf, ?_⟩
    rw [hcap]
    exact hwithin

/-- The bytes of the sequence in progress stay, unless the call is a command that does not fit (R34, R215): either the
step's result excludes it, or the call is none that disturbs the sequence. -/
theorem step_keeps_sequence {s t : State} (h : step s = .next t)
    (hd : t.out.result ≠ some .bufferTooSmall ∨ ∀ a, s.input.head? = some a → a.disturbs s.tx = false)
    (hp : s.tx.phase ≠ .txIdle) (a : Nat) (ha : a < s.tx.len.toNat) : t.tx.read a = s.tx.read a := by
  cases hin : s.input with
  | nil => exact step_keeps_payload h (by simp [hin]) a
  | cons call rest =>
    by_cases hstrobe : ∃ p, call = .strobe p
    · obtain ⟨p, rfl⟩ := hstrobe
      exact step_keeps_payload h (by simp [hin, Action.writesPayload]) a
    · rw [step_cons hin] at h
      exact (perform_other_reads (fun p hc => hstrobe ⟨p, hc⟩) h).2
        (hd.imp_right fun hd => hd call (by rw [hin]; rfl)) hp a ha

/-- Settles O38: `next()` folds the byte it emits into the sum, and no other agent's call changes a byte already
emitted. -/
theorem stepKeepsTransmitSum : Obligations.StepKeepsTransmitSum := by
  intro s t hi hs h hres
  obtain ⟨p, rest, r, c, n, x, v, -, -, hx, rfl⟩ | ⟨-, -, -, hx⟩ := step_cases h
  · exact txOfStrobes_keeps_sumInv hi hs hx
  · obtain ⟨hindex, -, -⟩ := hi
    exact hx.sumInv hindex (step_keeps_sequence h (.inl hres)) hs

/-- What holds along every run from a state holds along every run from the next one (R229). -/
theorem State.PayloadStable.step {s t : State} (hs : s.PayloadStable) (h : Machine.step s = .next t) :
    t.PayloadStable :=
  fun k u hu => hs (k + 1) u ((runsTo_succ k s u).2 ⟨t, h, hu⟩)

/-- Settles O52: both clauses by `step_keeps_sequence`, the premise of the second at the run of no step. -/
theorem sequenceBytesAreStable : Obligations.SequenceBytesAreStable := by
  intro s t h
  refine ⟨fun hp hres => step_keeps_sequence h (.inl hres) hp, fun hstable => ⟨hstable.step h, ?_⟩⟩
  exact step_keeps_sequence h (.inr (hstable 0 s ((runsTo_zero s s).2 rfl)))

/-! ## The owner's write (R34, R55) -/

/-- A write below `TX_CAP` that misses the sequence in progress is performed. -/
theorem ownerWrite_free {a : Half} {s : State} (v : Byte) (hc : a.toNat < s.tx.cap.toNat)
    (hs : s.tx.sends a.toNat = false) :
    ownerWrite a v s = .next { s with tx := { s.tx with payload := Memory.write s.tx.payload a.toNat v } } := by
  rw [ownerWrite, if_pos (BitVec.lt_def.2 hc), hs]
  rfl

theorem ownerWrite_outside {a : Half} {s : State} (v : Byte) (hc : s.tx.cap.toNat ≤ a.toNat) :
    ownerWrite a v s = .refused .writeOutsidePayload :=
  if_neg (by bv_omega)

/-- Settles O49: the written buffer is the witness, and `Tx.read_write` reads it. -/
theorem ownerWriteChangesOneByte : Obligations.OwnerWriteChangesOneByte := by
  intro s a v rest hin
  rw [step_cons hin]
  refine ⟨fun hc hfree => ?_, fun hc => ownerWrite_outside (s := s.begin rest) v hc⟩
  exact ⟨Memory.write s.tx.payload a.toNat v,
    ownerWrite_free (s := s.begin rest) v hc ((Tx.sends_eq_false _ _).2 hfree),
    fun b => Tx.read_write s.tx a.toNat b v⟩

/-! ## What selects nothing, and the state after reset -/

/-- A tag code of three bits past 4 is one of three, and a phase code past 5 one of two. -/
theorem decodeRx_unused {tag : BitVec 3} (b : Byte) (h : 5 ≤ tag.toNat) :
    decodeRx (rxWord tag b) = .error .unusedRxTag := by
  have hcode : tag.toNat = 5 ∨ tag.toNat = 6 ∨ tag.toNat = 7 := by omega
  rcases hcode with h | h | h <;> simp only [decodeRx, rxWord_tag, h]

theorem decodeTx_unused {phase : BitVec 3} (h : 6 ≤ phase.toNat) : decodeTx phase = .error .unusedTxPhase := by
  have hcode : phase.toNat = 6 ∨ phase.toNat = 7 := by omega
  rcases hcode with h | h <;> simp only [decodeTx, h]

/-- Settles O6: every code the two tables leave out falls to the decoder's last row. -/
theorem unusedTagsAreRefused : Obligations.UnusedTagsAreRefused :=
  ⟨fun _ b h => decodeRx_unused b h, fun _ h => decodeTx_unused h⟩

/-- With no call pending a step clears the results alone (R41). -/
theorem step_nil {s : State} (h : s.input = []) : step s = .next (s.begin []) := by
  simp only [step, h]

/-- Settles O9: no call, and strobes that are all low, select no operation. -/
theorem stepWithoutCallKeepsUnits : Obligations.StepWithoutCallKeepsUnits := by
  refine ⟨fun s hin => ?_, fun s rest hin => ?_⟩
  · rw [step_nil hin, State.begin, ← hin]
  · rw [step_cons hin]; rfl

theorem State.resetWith_atReset (rxCap txCap : Half) :
    (State.resetWith rxCap txCap).rx.AtReset ∧ (State.resetWith rxCap txCap).tx.AtReset :=
  ⟨⟨rfl, rfl, rfl, rfl⟩, rfl, rfl, rfl, rfl⟩

/-- Settles O35: `State.reset` is the state after reset at two parameter values (log 2). -/
theorem resetStateIsAtReset : Obligations.ResetStateIsAtReset :=
  ⟨State.resetWith_atReset, State.resetWith_atReset _ _⟩

/-- Settles O36: both units are at reset and both buffers are empty. -/
theorem resetStateMeetsInvariant : Obligations.ResetStateMeetsInvariant := by
  intro rxCap txCap
  obtain ⟨hrx, htx⟩ := State.resetWith_atReset rxCap txCap
  obtain ⟨hinv, hsum⟩ := htx.inv
  exact ⟨⟨hrx.inv, hinv, ⟨rfl, rfl⟩, rfl, rfl⟩, hsum⟩

end Sys2Proof.Machine
end

section
/-! Proofs of family 20_memory: the two units do not interfere (O11), how long an accepted frame's bytes stay in the
buffer (O25), and accesses inside and outside the buffers (O17, O29, O48). -/

namespace Sys2Proof.Machine

/-! ## The two units side by side (R61) -/

/-- The receiver's part of a step sees no strobe but `reset` and `push`. -/
theorem rxOfStrobes_congr {p p' : Strobes} (hreset : p.reset = p'.reset) (hpush : p.push = p'.push) (r : Rx) :
    rxOfStrobes p r = rxOfStrobes p' r := by
  simp only [rxOfStrobes, hreset, hpush]

/-- The serializer's part of a step sees no strobe but `reset`, `serialize` and `next`. -/
theorem txOfStrobes_congr {p p' : Strobes} (hreset : p.reset = p'.reset) (hstart : p.start = p'.start)
    (hnext : p.next = p'.next) (t : Tx) : txOfStrobes p t = txOfStrobes p' t := by
  simp only [txOfStrobes, hreset, hstart, hnext]

/-- Settles O11: a step by strobes is the two units' steps side by side, and each of those is a function of its unit
and that unit's strobes. -/
theorem unitsDoNotInterfere : Obligations.UnitsDoNotInterfere := by
  intro s s' t t' p p' rest rest' hin hin' hreset h h'
  obtain ⟨r, c, n, x, v, hr, hx, rfl⟩ := (step_strobe_next hin).1 h
  obtain ⟨r', c', n', x', v', hr', hx', rfl⟩ := (step_strobe_next hin').1 h'
  refine ⟨fun hrx hpush => ?receiver, fun htx hstart hnext => ?serializer⟩
  case receiver =>
    rw [hrx, rxOfStrobes_congr hreset hpush, hr'] at hr
    cases hr
    exact ⟨rfl, rfl, rfl⟩
  case serializer =>
    rw [htx, txOfStrobes_congr hreset hstart hnext, hx'] at hx
    cases hx
    exact ⟨rfl, rfl⟩

/-! ## How many pushes leave the scratch buffer alone (R63) -/

/-- How many pushes, at the least, take place before one can write the scratch buffer: the delimiter and the two length
bytes that an attempt still has to come. A `reset` among them never makes them fewer; after the checksum a whole header
is to come. -/
def Rx.pushesBeforeWrite (r : Rx) : Nat :=
  match r.state with
  | .waitingForDelimiter => 3
  | .receivingLengthMsb => 2
  | .receivingLengthLsb => 1
  | .receivingData => 0
  | .receivingChecksum => 3

theorem Rx.pushesBeforeWrite_le (r : Rx) : r.pushesBeforeWrite ≤ 3 := by
  unfold Rx.pushesBeforeWrite
  split <;> decide

@[simp] theorem Rx.pushesBeforeWrite_resetCounters (r : Rx) : r.resetCounters.pushesBeforeWrite = 3 := rfl

theorem Rx.AtReset.pushesBeforeWrite {r : Rx} (h : r.AtReset) : r.pushesBeforeWrite = 3 := by
  obtain ⟨hstate, -, -, -⟩ := h
  rw [Rx.pushesBeforeWrite, hstate]

/-- A push that is not yet one of the payload keeps the buffer and uses up at most one of the pushes before a write. -/
theorem rxStep_before_write {r r' : Rx} {b : Byte} {c : RxStatus} {n : Half} (h : rxStep r b = some (r', c, n))
    (hpos : 1 ≤ r.pushesBeforeWrite) :
    r'.buf = r.buf ∧ r.pushesBeforeWrite ≤ r'.pushesBeforeWrite + 1 := by
  have hle := r.pushesBeforeWrite_le
  obtain rfl | rfl | ⟨hs, rfl⟩ | ⟨hs, -, rfl⟩ | ⟨hs, -, rfl⟩ | ⟨hs, -, rfl⟩ := rxStep_cases h
  · exact ⟨rfl, by rw [Rx.pushesBeforeWrite_resetCounters]; omega⟩
  · exact ⟨rfl, Nat.le_succ _⟩
  · exact ⟨rfl, by simp only [Rx.pushesBeforeWrite, hs]; decide⟩
  · exact ⟨rfl, by simp only [Rx.pushesBeforeWrite, hs]; decide⟩
  · exact ⟨rfl, by rw [Rx.pushesBeforeWrite, hs]; exact Nat.le_add_left _ _⟩
  · simp [Rx.pushesBeforeWrite, hs] at hpos

/-- Strobes without a push that takes place reset the receiver or leave it as it is, so a write comes no nearer. -/
theorem rxOfStrobes_no_push {p : Strobes} {r r' : Rx} {c : RxStatus} {n : Half}
    (hp : (Action.strobe p).pushes = false) (h : rxOfStrobes p r = some (r', c, n)) :
    r.pushesBeforeWrite ≤ r'.pushesBeforeWrite := by
  unfold rxOfStrobes at h
  split at h
  · cases h; exact r.pushesBeforeWrite_le
  · rename_i hreset
    split at h
    · rename_i b hpush
      simp [Action.pushes, hreset, hpush] at hp
    · cases h; exact le_rfl

/-- A step whose call is no push brings a write no nearer. -/
theorem step_no_push {s t : State} (h : step s = .next t) (hp : ∀ a, s.input.head? = some a → a.pushes = false) :
    s.rx.pushesBeforeWrite ≤ t.rx.pushesBeforeWrite := by
  obtain ⟨p, rest, r, c, n, x, v, hin, hr, -, rfl⟩ | ⟨-, hrx, -⟩ := step_cases h
  · exact rxOfStrobes_no_push (hp (.strobe p) (by rw [hin]; rfl)) hr
  · rw [hrx]

/-- While a push must still come before a write, a step keeps the buffer and brings the write nearer by one push at
most. -/
theorem step_before_write {s t : State} (h : step s = .next t) (hpos : 1 ≤ s.rx.pushesBeforeWrite) :
    t.rx.buf = s.rx.buf ∧ s.rx.pushesBeforeWrite ≤ t.rx.pushesBeforeWrite + 1 := by
  obtain ⟨p, rest, r, c, n, x, v, -, hr, -, rfl⟩ | ⟨-, hrx, -⟩ := step_cases h
  · obtain rfl | rfl | ⟨b, hb⟩ := rxOfStrobes_cases hr
    · exact ⟨rfl, s.rx.pushesBeforeWrite_le.trans (Nat.le_succ 3)⟩
    · exact ⟨rfl, Nat.le_succ _⟩
    · exact rxStep_before_write hb hpos
  · rw [hrx]
    exact ⟨rfl, Nat.le_succ _⟩

/-- A step whose pushes cannot write yet keeps the buffer, and takes no more than them from the pushes before a write. -/
theorem step_spends_pushes {s t : State} (h : step s = .next t)
    (hfew : (s.input.take 1).countP Action.pushes ≤ s.rx.pushesBeforeWrite) :
    t.rx.buf = s.rx.buf ∧
      s.rx.pushesBeforeWrite ≤ t.rx.pushesBeforeWrite + (s.input.take 1).countP Action.pushes := by
  by_cases hpush : ∀ a, s.input.head? = some a → a.pushes = false
  · exact ⟨step_keeps_buf h hpush, (step_no_push h hpush).trans (Nat.le_add_right _ _)⟩
  · push Not at hpush
    obtain ⟨a, ha, hp⟩ := hpush
    obtain ⟨rest, hin⟩ := List.head?_eq_some_iff.1 ha
    have hone : (s.input.take 1).countP Action.pushes = 1 := by simp [hin, hp]
    rw [hone] at hfew ⊢
    exact step_before_write h hfew

/-- The pushes among the next `k + 1` calls are those of the next one and those of the `k` after it. -/
theorem countP_take_succ (q : Action → Bool) (l : List Action) (k : Nat) :
    (l.take (k + 1)).countP q = (l.take 1).countP q + (l.tail.take k).countP q := by
  rw [Nat.add_comm, List.take_add, List.countP_append, List.drop_one]

/-- A run with no more pushes than take place before a write keeps the buffer. -/
theorem runsTo_keeps_buf {k : Nat} {s t : State} (h : runsTo k s t)
    (hfew : (s.input.take k).countP Action.pushes ≤ s.rx.pushesBeforeWrite) : t.rx.buf = s.rx.buf := by
  induction k generalizing s with
  | zero => rw [(runsTo_zero s t).1 h]
  | succ k ih =>
    obtain ⟨u, hu, hrun⟩ := (runsTo_succ k s t).1 h
    obtain ⟨-, -, hinput⟩ := step_keeps_params hu
    rw [countP_take_succ, ← hinput] at hfew
    obtain ⟨hbuf, hspent⟩ := step_spends_pushes hu (by omega)
    rw [ih hrun (by omega), hbuf]

/-- Settles O25: both clauses by `runsTo_keeps_buf`, with no push in the first, and in the second with the three pushes
of a header, which from reset come before the first write. -/
theorem frameBytesSurviveThreePushes : Obligations.FrameBytesSurviveThreePushes := by
  intro k s t h
  refine ⟨fun hnone => ?noPush, fun _ hreset hthree => ?threePushes⟩
  case noPush =>
    have hzero : (s.input.take k).countP Action.pushes = 0 :=
      List.countP_eq_zero.2 fun a ha => by simp [hnone a ha]
    exact Rx.bytes_congr (runsTo_keeps_buf h (hzero ▸ Nat.zero_le _))
  case threePushes =>
    exact Rx.bytes_congr (runsTo_keeps_buf h (hreset.pushesBeforeWrite ▸ hthree))

/-! ## Accesses inside and outside the buffers (R50, R53, R54, R58) -/

/-- Settles O17: the bound that RX_DATA tests fails (R53; log 8). -/
theorem dataOutsideBufferFaults : Obligations.DataOutsideBufferFaults := by
  intro b s hout
  have hbound : ¬ s.rx.cursor < s.rx.cap := by bv_omega
  exact if_neg hbound

/-- Settles O29: the bound that TX_DATA tests fails (R50; log 8). -/
theorem dataByteOutsidePayloadFaults : Obligations.DataByteOutsidePayloadFaults := by
  intro s hout
  have hbound : ¬ s.tx.index < s.tx.cap := by bv_omega
  exact if_neg hbound

/-- A consumer read below `RX_CAP` hands out the byte there (R54). -/
theorem consumerRead_inside {a : Half} {s : State} (hc : a.toNat < s.rx.cap.toNat) :
    consumerRead a s = .next { s with out := { s.out with rdData := some (s.rx.read a.toNat) } } :=
  if_pos (BitVec.lt_def.2 hc)

theorem consumerRead_outside {a : Half} {s : State} (hc : s.rx.cap.toNat ≤ a.toNat) :
    consumerRead a s = .refused .readOutsideBuf :=
  if_neg (by bv_omega)

/-- Settles O48: the call is taken off, and the consumer's read is all that is left of the step. -/
theorem consumerReadHasNoSideEffect : Obligations.ConsumerReadHasNoSideEffect := by
  intro s a rest hin
  rw [step_cons hin]
  exact ⟨consumerRead_inside (s := s.begin rest), consumerRead_outside (s := s.begin rest)⟩

end Sys2Proof.Machine
end

section
/-! Proofs of family 30_encoding: decoding an encoding and encoding what was decoded (O1, O2, O3), what a `push`, a
`next` and a message select (O4, O5, O50), and the length field (O7). -/

namespace Sys2Proof.Machine

/-! ## What the tags select (R76, R77) -/

/-- Settles O4: the two fields of the selector word are the tag and the byte, and each tag has its row. -/
theorem pushSelectsOneOperation : Obligations.PushSelectsOneOperation := by
  intro st b
  have hdelim : b.toNat = 0x7E ↔ b = delimiter := BitVec.toNat_inj (y := delimiter)
  simp only [pushSelector, decode, decodeRx, rxWord_tag, rxWord_byte, hdelim]
  cases st
  case waitingForDelimiter => exact (apply_ite Except.ok (b = delimiter) Instr.rxWaitSync (.rxWaitDiscard b)).symm
  all_goals rfl

/-- Settles O5: each phase's code is its row's. -/
theorem nextSelectsOneOperation : Obligations.NextSelectsOneOperation :=
  ⟨rfl, rfl, rfl, rfl, rfl, rfl⟩

/-- The codes of R21 fill the range below 5. -/
theorem RxState.exists_code {tag : BitVec 3} (h : tag.toNat < 5) : ∃ st : RxState, st.code = tag := by
  have hcode : tag = 0 ∨ tag = 1 ∨ tag = 2 ∨ tag = 3 ∨ tag = 4 := by bv_omega
  rcases hcode with rfl | rfl | rfl | rfl | rfl
  exacts [⟨.waitingForDelimiter, rfl⟩, ⟨.receivingLengthMsb, rfl⟩, ⟨.receivingLengthLsb, rfl⟩, ⟨.receivingData, rfl⟩,
    ⟨.receivingChecksum, rfl⟩]

/-- The codes of R30 fill the range below 6. -/
theorem TxPhase.exists_code {w : BitVec 3} (h : w.toNat < 6) : ∃ ph : TxPhase, ph.code = w := by
  have hcode : w = 0 ∨ w = 1 ∨ w = 2 ∨ w = 3 ∨ w = 4 ∨ w = 5 := by bv_omega
  rcases hcode with rfl | rfl | rfl | rfl | rfl | rfl
  exacts [⟨.txIdle, rfl⟩, ⟨.txDelimiter, rfl⟩, ⟨.txLengthMsb, rfl⟩, ⟨.txLengthLsb, rfl⟩, ⟨.txData, rfl⟩,
    ⟨.txChecksum, rfl⟩]

/-- A selector word of a receiver operation is that operation's encoding. -/
theorem encode_of_decodeRx {w : BitVec 11} {i : Instr} (h : decodeRx w = .ok i) :
    i.wf = true ∧ encode i = .rx w := by
  obtain ⟨tag, b, rfl⟩ : ∃ tag b, rxWord tag b = w := ⟨_, _, rxWord_fields w⟩
  by_cases hunused : 5 ≤ tag.toNat
  · rw [decodeRx_unused b hunused] at h
    cases h
  · obtain ⟨st, rfl⟩ := RxState.exists_code (Nat.lt_of_not_le hunused)
    obtain rfl := Except.ok.inj ((pushSelectsOneOperation st b).symm.trans h)
    cases st
    case waitingForDelimiter =>
      dsimp only
      split
      next hb => exact ⟨rfl, congrArg (fun v => Selector.rx (rxWord 0 v)) (BitVec.eq_of_toNat_eq hb.symm)⟩
      next hb => exact ⟨decide_eq_true fun hd => hb (congrArg BitVec.toNat hd), rfl⟩
    all_goals exact ⟨rfl, rfl⟩

/-- A selector word of a serializer operation is that operation's encoding. -/
theorem encode_of_decodeTx {w : BitVec 3} {i : Instr} (h : decodeTx w = .ok i) :
    i.wf = true ∧ encode i = .tx w := by
  by_cases hunused : 6 ≤ w.toNat
  · rw [decodeTx_unused hunused] at h
    cases h
  · obtain ⟨ph, rfl⟩ := TxPhase.exists_code (Nat.lt_of_not_le hunused)
    cases ph <;> cases h <;> exact ⟨rfl, rfl⟩

/-! ## What the bytes of a message select (R83, R152, R153) -/

/-- The layout of an AT command decodes to it, with and without the parameter (R152). -/
theorem decode_atCommand_layout (m : AtCommand) : decode (.payload m.layout) = .ok (.atCommand m) := by
  obtain ⟨frameId, name0, name1, parameter⟩ := m
  cases parameter <;> rfl

/-- The layout of a transmit request decodes to it: every field is read back from its bytes (R153, R154). -/
theorem decode_transmitRequest_layout (m : TransmitRequest) :
    decode (.payload m.layout) = .ok (.transmitRequest m) := by
  change decodeTransmitRequest m.layout = _
  simp [TransmitRequest.layout, decodeTransmitRequest, joinAddr_addrByte]

/-- A payload that leads with an AT command response's identifier decodes to its parse, whatever follows (R83). -/
theorem decode_atCommandResponse {buffer : List Byte} (h : buffer.head? = some idAtCommandResponse) :
    decode (.payload buffer) = .ok (.atCommandResponse buffer) := by
  obtain ⟨rest, rfl⟩ := List.head?_eq_some_iff.1 h
  rfl

/-- A payload that leads with a receive packet's identifier decodes to its parse, whatever follows (R83). -/
theorem decode_zigbeeReceivePacket {buffer : List Byte} (h : buffer.head? = some idZigbeeReceivePacket) :
    decode (.payload buffer) = .ok (.zigbeeReceivePacket buffer) := by
  obtain ⟨rest, rfl⟩ := List.head?_eq_some_iff.1 h
  rfl

/-- Bytes that lead with none of the four identifiers select nothing (R163, U12). -/
theorem decode_payload_unknown {buffer : List Byte}
    (h : ∀ id, buffer.head? = some id → id ≠ idAtCommand ∧ id ≠ idTransmitRequest ∧ id ≠ idAtCommandResponse ∧
      id ≠ idZigbeeReceivePacket) : ∃ e, decode (.payload buffer) = .error e := by
  cases buffer with
  | nil => exact ⟨_, rfl⟩
  | cons id rest =>
    obtain ⟨hat, htransmit, hresponse, hpacket⟩ := h id rfl
    exact ⟨.unknownIdentifier, by simp only [decode, decodePayload, hat, htransmit, hresponse, hpacket, if_false]⟩

/-- A message that is no transmit request has no bit that the decoder ignores. -/
theorem canonical_payload_of_ne {id : Byte} (h : id ≠ idTransmitRequest) (rest : List Byte) :
    (Selector.payload (id :: rest)).canonical = .payload (id :: rest) :=
  if_neg fun hhead => h (Option.some.inj hhead)

/-- Only the options byte of a transmit request has bits that the decoder ignores (U12). -/
theorem canonical_transmitRequest (rest : List Byte) :
    (Selector.payload (idTransmitRequest :: rest)).canonical
      = .payload ((idTransmitRequest :: rest).modify 13 (· &&& 0x61)) := by
  simp only [Selector.canonical, List.head?_cons, if_true]

/-- The mask 0x61 keeps the three named bits of an options byte, and laying them out again gives those; the other five
are 0 whatever the named ones are (R154). -/
theorem optionsByte_of_bits (options : Byte) :
    optionsByte (options.getLsbD 0) (options.getLsbD 5) (options.getLsbD 6) = options &&& 0x61 := by
  apply BitVec.eq_of_getLsbD_eq
  intro i hi
  by_cases hnamed : i = 0 ∨ i = 5 ∨ i = 6
  · rcases hnamed with rfl | rfl | rfl <;> simp
  · have hunnamed : i = 1 ∨ i = 2 ∨ i = 3 ∨ i = 4 ∨ i = 7 := by omega
    rcases hunnamed with rfl | rfl | rfl | rfl | rfl <;>
      cases options.getLsbD 0 <;> cases options.getLsbD 5 <;> cases options.getLsbD 6 <;> simp [optionsByte]

/-- Bytes that decode to an AT command are its layout. -/
theorem encode_of_decodeAtCommand {rest : List Byte} {i : Instr}
    (h : decodeAtCommand (idAtCommand :: rest) = .ok i) :
    i.wf = true ∧ encode i = .payload (idAtCommand :: rest) := by
  unfold decodeAtCommand at h
  split at h
  next hbytes => cases h; cases hbytes; exact ⟨rfl, rfl⟩
  next hbytes => cases h; cases hbytes; exact ⟨rfl, rfl⟩
  next => cases h

/-- Bytes that decode to a transmit request are its layout, but for the unnamed bits of the options byte. -/
theorem encode_of_decodeTransmitRequest {rest : List Byte} {i : Instr}
    (h : decodeTransmitRequest (idTransmitRequest :: rest) = .ok i) :
    i.wf = true ∧ encode i = .payload ((idTransmitRequest :: rest).modify 13 (· &&& 0x61)) := by
  unfold decodeTransmitRequest at h
  split at h
  next _ frameId a0 a1 a2 a3 a4 a5 a6 a7 n0 n1 radius options payload hbytes =>
    cases h
    cases hbytes
    have haddr := addrByte_joinAddr a0 a1 a2 a3 a4 a5 a6 a7
    simp only [List.map_cons, List.map_nil, List.cons.injEq, and_true] at haddr
    obtain ⟨h0, h1, h2, h3, h4, h5, h6, h7⟩ := haddr
    refine ⟨rfl, ?_⟩
    simp only [encode, TransmitRequest.layout, h0, h1, h2, h3, h4, h5, h6, h7, hiByte_joinHalf, loByte_joinHalf,
      optionsByte_of_bits]
    rfl
  next => cases h

/-- A message that selects an operation is that operation's encoding, but for the bits that `canonical` clears. -/
theorem encode_of_decodePayload {bytes : List Byte} {i : Instr} (h : decodePayload bytes = .ok i) :
    i.wf = true ∧ encode i = (Selector.payload bytes).canonical := by
  cases bytes with
  | nil => cases h
  | cons id rest =>
    simp only [decodePayload] at h
    split at h
    next hid =>
      subst hid
      rw [canonical_payload_of_ne (by decide)]
      exact encode_of_decodeAtCommand h
    split at h
    next hid =>
      subst hid
      rw [canonical_transmitRequest]
      exact encode_of_decodeTransmitRequest h
    rename_i hne
    rw [canonical_payload_of_ne hne]
    split at h
    next hid => cases h; subst hid; exact ⟨rfl, rfl⟩
    split at h
    next hid => cases h; subst hid; exact ⟨rfl, rfl⟩
    next => cases h

/-! ## The two directions of the encoding -/

/-- Settles O1: the receiver's and the serializer's operations by the rows of R76 and R77, the commands by reading
their layouts back, the responses by their leading identifier. -/
theorem decodeOfEncodeIsIdentity : Obligations.DecodeOfEncodeIsIdentity := by
  intro i hwf
  obtain ⟨hidle, hdelim, hmsb, hlsb, hdata, hcksum⟩ := nextSelectsOneOperation
  cases i with
  | rxWaitDiscard b =>
    have hb : b.toNat ≠ 0x7E := fun h => of_decide_eq_true hwf (BitVec.eq_of_toNat_eq h)
    exact (pushSelectsOneOperation .waitingForDelimiter b).trans (congrArg Except.ok (if_neg hb))
  | rxWaitSync => exact pushSelectsOneOperation .waitingForDelimiter delimiter
  | rxLenMsb b => exact pushSelectsOneOperation .receivingLengthMsb b
  | rxLenLsb b => exact pushSelectsOneOperation .receivingLengthLsb b
  | rxData b => exact pushSelectsOneOperation .receivingData b
  | rxCksum b => exact pushSelectsOneOperation .receivingChecksum b
  | txIdle => exact hidle
  | txDelim => exact hdelim
  | txLenMsb => exact hmsb
  | txLenLsb => exact hlsb
  | txData => exact hdata
  | txCksum => exact hcksum
  | txStart len => rfl
  | reset => rfl
  | atCommand m => exact decode_atCommand_layout m
  | transmitRequest m => exact decode_transmitRequest_layout m
  | atCommandResponse buffer => exact decode_atCommandResponse (of_decide_eq_true hwf)
  | zigbeeReceivePacket buffer => exact decode_zigbeeReceivePacket (of_decide_eq_true hwf)

/-- Settles O2: format by format; only a transmit request has bits that no field sets. -/
theorem encodeOfDecodeIsIdentity : Obligations.EncodeOfDecodeIsIdentity := by
  intro sel i h
  cases sel with
  | rx w => exact encode_of_decodeRx h
  | tx w => exact encode_of_decodeTx h
  | serialize len => cases h; exact ⟨rfl, rfl⟩
  | reset => cases h; exact ⟨rfl, rfl⟩
  | payload bytes => exact encode_of_decodePayload h

/-- Settles O3: each of the words is the encoding of its operation, so O1 decodes it. -/
theorem writtenOutWordsDecode : Obligations.WrittenOutWordsDecode :=
  have hdecode := decodeOfEncodeIsIdentity
  ⟨hdecode .rxWaitSync rfl, hdecode (.rxWaitDiscard 0x7D) rfl, hdecode (.rxLenMsb 0x7E) rfl,
    hdecode (.rxLenLsb 0x2C) rfl, hdecode (.rxData 0x4E) rfl, hdecode (.rxCksum 0x0D) rfl, hdecode .txIdle rfl,
    hdecode .txData rfl, hdecode (.atCommand ⟨0x52, 0x4E, 0x4A, some 0x4B⟩) rfl,
    hdecode (.transmitRequest ⟨0x01, 0x0013A200400A0127, 0xFFFE, 0x00, true, true, true, [0x54]⟩) rfl,
    hdecode (.atCommandResponse [0x88, 0x52, 0x4E, 0x4A, 0x00]) rfl⟩

/-! ## The length field (R78, R79) -/

/-- Settles O7: quotient and remainder by 256 are two bytes, and `256 * (L / 256) + L % 256 = L` needs no carry. -/
theorem lengthBytesReassemble : Obligations.LengthBytesReassemble := by
  intro len
  have hhigh : (lengthHigh (hiByte len)).toNat = 256 * (len.toNat / 256) := by
    rw [lengthHigh_toNat, hiByte_toNat, Nat.mul_comm]
  refine ⟨hiByte_toNat len, loByte_toNat len, hhigh, BitVec.eq_of_toNat_eq ?_⟩
  rw [lengthWithLow_toNat, hhigh, loByte_toNat, Nat.div_add_mod, Nat.mod_eq_of_lt len.isLt]

/-! ## A message call (R86, R156, R163) -/

/-- A message call whose bytes select an operation is a step of that operation. -/
theorem step_message {s : State} {bytes : List Byte} {rest : List Action} {i : Instr}
    (hin : s.input = .message bytes :: rest) (h : decode (.payload bytes) = .ok i) :
    step s = exec i (s.begin rest) := by
  obtain ⟨-, -, -, -, hmessage⟩ := stepRunsDecodedInstruction s rest i
  exact hmessage bytes hin h

/-- A message call whose bytes select nothing is ignored (R163, U12). -/
theorem callMessage_ignored {bytes : List Byte} {e : DecodeError} (h : decode (.payload bytes) = .error e)
    (s : State) : callMessage bytes s = .next (s.returned .ignored) := by
  simp only [callMessage, h]

/-- Settles O50: each clause is what the bytes decode to. -/
theorem messageCallRunsItsOperation : Obligations.MessageCallRunsItsOperation := by
  intro s rest
  refine ⟨fun m hin => step_message hin (decode_atCommand_layout m),
    fun m hin => step_message hin (decode_transmitRequest_layout m),
    fun buffer hin hid => step_message hin (decode_atCommandResponse hid),
    fun buffer hin hid => step_message hin (decode_zigbeeReceivePacket hid), fun buffer hin hid => ?ignored⟩
  obtain ⟨e, he⟩ := decode_payload_unknown hid
  exact (step_cons hin).trans (callMessage_ignored he (s.begin rest))

end Sys2Proof.Machine
end

section
/-! Proofs of family 40_receiver: in a state that meets the invariants the block never stops (O39), the receiver's
operations one by one (O12 to O16, O18), a whole attempt (O19 to O22), and what the receiver keeps or forgets
(O23, O24). -/

namespace Sys2Proof.Machine

/-! ## The block never stops (R116, R131, R142, R227) -/

/-- A push goes on in every state of R27: the one write it can make is below `RX_CAP`, by I-d. -/
theorem rxStep_goesOn {r : Rx} (b : Byte) (hi : r.Inv) : ∃ y, rxStep r b = some y := by
  obtain ⟨-, hphase⟩ := hi
  cases hs : r.state <;> simp only [hs] at hphase
  case receivingData =>
    obtain ⟨hpos, hfit, -⟩ := hphase
    exact ⟨_, rxStep_data hs (by omega)⟩
  all_goals simp only [rxStep, hs]; split <;> exact ⟨_, rfl⟩

/-- `next()` goes on in every state of R36: the byte it reads lies below `tx.len`, so below `TX_CAP`. -/
theorem txNext_goesOn {t : Tx} (hi : t.Inv) : ∃ y, txNext t = some y := by
  obtain ⟨-, hlen, hphase⟩ := hi
  cases hp : t.phase <;> simp only [hp] at hphase <;> simp only [txNext, hp]
  case txData => exact ⟨_, if_pos (by bv_omega)⟩
  all_goals exact ⟨_, rfl⟩

theorem rxOfStrobes_goesOn {r : Rx} (p : Strobes) (hi : r.Inv) : ∃ y, rxOfStrobes p r = some y := by
  unfold rxOfStrobes
  split
  · exact ⟨_, rfl⟩
  split
  · exact rxStep_goesOn _ hi
  · exact ⟨_, rfl⟩

/-- The strobes of the serializer go on too, where the length of a `serialize` that takes place fits (R140). -/
theorem txOfStrobes_goesOn {p : Strobes} {t : Tx} (hfit : (Action.strobe p).lenFits t.cap = true) (hi : t.Inv) :
    ∃ y, txOfStrobes p t = some y := by
  unfold txOfStrobes
  split
  · exact ⟨_, rfl⟩
  rename_i hreset
  split
  · rename_i len hstart
    have hlen : len ≤ t.cap := by simpa [Action.lenFits, hreset, hstart] using hfit
    exact ⟨_, if_pos hlen⟩
  split
  · exact txNext_goesOn hi
  · exact ⟨_, rfl⟩

/-- Settles O39: both units go on, and then the step keeps the invariants (O37). -/
theorem blockNeverStops : Obligations.BlockNeverStops := by
  intro s p rest hi hfits hin
  have ⟨hrx, htx, _, _⟩ := hi
  obtain ⟨⟨r, c, n⟩, hr⟩ := rxOfStrobes_goesOn p hrx
  obtain ⟨⟨x, v⟩, hx⟩ := txOfStrobes_goesOn (hfits (.strobe p) (by simp [hin])) htx
  have hstep := (step_strobe_next hin).2 ⟨r, c, n, x, v, hr, hx, rfl⟩
  exact ⟨_, hstep, stepKeepsInvariant s _ hi hstep⟩

/-! ## The receiver's operations (R101 to R108) -/

/-- Settles O12: what RX_WAIT_DISCARD hands out is `(None, 0)`, over the receiver as it was. -/
theorem waitDiscardChangesNothing : Obligations.WaitDiscardChangesNothing := fun _ _ => rfl

/-- Settles O13: the tag is all that RX_WAIT_SYNC sets. -/
theorem waitSyncStartsAttempt : Obligations.WaitSyncStartsAttempt := fun _ => rfl

/-- The shifted high byte as a number (R78). -/
theorem lengthHigh_eq_ofNat (b : Byte) : lengthHigh b = BitVec.ofNat 16 (b.toNat * 256) := by
  rw [← lengthHigh_toNat, BitVec.ofNat_toNat, BitVec.setWidth_eq]

theorem lengthHigh_aligned (b : Byte) : (lengthHigh b).toNat % 256 = 0 := by
  rw [lengthHigh_toNat, Nat.mul_mod_left]

/-- The low byte adds to a multiple of 256 without wrapping (R104). -/
theorem lengthWithLow_toNat_of_aligned {remaining : Half} (b : Byte) (h : remaining.toNat % 256 = 0) :
    (lengthWithLow remaining b).toNat = remaining.toNat + b.toNat := by
  have := remaining.isLt
  have := b.isLt
  rw [lengthWithLow_toNat]
  omega

/-- The declared length is 0 exactly when both parts are. -/
theorem lengthWithLow_eq_zero_iff {remaining : Half} (b : Byte) (h : remaining.toNat % 256 = 0) :
    lengthWithLow remaining b = 0 ↔ remaining.toNat + b.toNat = 0 := by
  rw [← lengthWithLow_toNat_of_aligned b h]
  exact BitVec.toNat_inj.symm

/-- Settles O14: the capacity check is `b * 256` against `RX_CAP`. -/
theorem lengthMsbLoadsOrRejects : Obligations.LengthMsbLoadsOrRejects := by
  intro b s
  refine ⟨fun hfits => ?loads, fun hover => ?rejects⟩
  case loads =>
    have hc : ¬ exceedsCap (lengthHigh b) s.rx.cap = true := by rw [exceedsCap_iff, lengthHigh_toNat]; omega
    rw [← lengthHigh_eq_ofNat]
    exact if_neg hc
  case rejects =>
    have hc : exceedsCap (lengthHigh b) s.rx.cap = true := by rw [exceedsCap_iff, lengthHigh_toNat]; omega
    exact if_pos hc

/-- Settles O15: by I-c the sum does not wrap, so the capacity check and the test for 0 are those of the sum. -/
theorem lengthLsbLoadsOrRejects : Obligations.LengthLsbLoadsOrRejects := by
  intro b s haligned
  have hn := lengthWithLow_toNat_of_aligned b haligned
  refine ⟨fun hfits => ?loads, fun hover => ?rejects⟩
  case loads =>
    have hc : ¬ exceedsCap (lengthWithLow s.rx.remaining b) s.rx.cap = true := by rw [exceedsCap_iff]; omega
    simp only [← lengthWithLow_eq_zero_iff b haligned]
    rw [← hn, BitVec.ofNat_toNat, BitVec.setWidth_eq]
    exact if_neg hc
  case rejects =>
    have hc : exceedsCap (lengthWithLow s.rx.remaining b) s.rx.cap = true := by rw [exceedsCap_iff]; omega
    exact if_pos hc

/-- Settles O16: the receiver with the byte written is the witness; within I-d neither counter wraps. -/
theorem dataStoresOneByte : Obligations.DataStoresOneByte := by
  intro b s hcursor hleft
  have hmore : 0 < s.rx.remaining - 1 ↔ 1 < s.rx.remaining.toNat := by bv_omega
  refine ⟨_, if_pos (BitVec.lt_def.2 hcursor), ?_, fun a ha => ?_, by bv_omega, addChecksum_toNat _ _, by bv_omega,
    by simp only [hmore], rfl⟩
  · exact (Rx.read_write s.rx _ _ b).trans (if_pos rfl)
  · exact (Rx.read_write s.rx _ _ b).trans (if_neg ha)

/-- Settles O18: the comparison is with `255 - checksum`, and both ways reset the counters. -/
theorem cksumAcceptsOrRejects : Obligations.CksumAcceptsOrRejects := by
  intro b s
  exact ⟨fun hb => if_pos ((checksumMatches_iff _ _).2 hb),
    fun hb => if_neg fun hm => hb ((checksumMatches_iff _ _).1 hm)⟩

/-! ## Pushes that go on inside an attempt (R100, R110) -/

/-- The pushes of `bytes`, in order, bring a receiver from the first state to the second; each returns `(None, 0)` and
leaves it inside an attempt. -/
inductive Rx.Advances : Rx → List Byte → Rx → Prop where
  | nil (r : Rx) : Rx.Advances r [] r
  | cons {r u r' : Rx} {b : Byte} {bytes : List Byte} (hstep : rxStep r b = some (u, .none, 0))
      (hinside : u.state ≠ .waitingForDelimiter) (hrest : Rx.Advances u bytes r') : Rx.Advances r (b :: bytes) r'

/-- A push that goes on is a step of the machine. -/
theorem step_push_some {s : State} {b : Byte} {rest : List Action} {r : Rx} {c : RxStatus} {n : Half}
    (hin : s.input = pushCall b :: rest) (h : rxStep s.rx b = some (r, c, n)) :
    step s = .next ((s.begin rest).pushed r c n) := by
  rw [step_push hin, h]

/-- Feeding bytes that advance a receiver runs through, up to the calls after them. -/
theorem Rx.Advances.runsTo_end {r r' : Rx} {bytes : List Byte} (h : r.Advances bytes r') {s : State}
    {rest : List Action} (hrx : s.rx = r) (hin : s.input = feed bytes ++ rest) :
    ∃ t, runsTo bytes.length s t ∧ t.rx = r' ∧ t.input = rest := by
  induction h generalizing s with
  | nil r => exact ⟨s, (runsTo_zero s s).2 rfl, hrx, hin⟩
  | cons hstep _ _ ih =>
    subst hrx
    obtain ⟨t, hrun, hend⟩ := ih (s := (s.begin _).pushed _ .none 0) rfl rfl
    exact ⟨t, (runsTo_succ _ s t).2 ⟨_, step_push_some hin hstep, hrun⟩, hend⟩

/-- After each of the pushes that advance a receiver the machine has returned `(None, 0)`, inside the attempt. -/
theorem Rx.Advances.runsTo_inside {r r' : Rx} {bytes : List Byte} (h : r.Advances bytes r') {s : State}
    {rest : List Action} (hrx : s.rx = r) (hin : s.input = feed bytes ++ rest) (k : Nat) (hpos : 1 ≤ k)
    (hk : k ≤ bytes.length) :
    ∃ t, runsTo k s t ∧ t.out.rxStatus = .none ∧ t.out.rxFrameLen = 0 ∧ t.rx.state ≠ .waitingForDelimiter := by
  induction h generalizing s k with
  | nil r => exact absurd (hpos.trans hk) (Nat.not_succ_le_zero 0)
  | cons hstep hinside _ ih =>
    subst hrx
    have hfirst := step_push_some hin hstep
    match k, hpos with
    | 1, _ => exact ⟨_, (runsTo_one s _).2 hfirst, rfl, rfl, hinside⟩
    | j + 2, _ =>
      obtain ⟨t, hrun, ht⟩ := ih (s := (s.begin _).pushed _ .none 0) rfl rfl (j + 1) (by omega) (by simpa using hk)
      exact ⟨t, (runsTo_succ (j + 1) s t).2 ⟨_, hfirst, hrun⟩, ht⟩

/-- Feeding bytes that advance a receiver and then one byte more ends as the push of that byte says. -/
theorem Rx.Advances.runsTo_push {s : State} {r r' : Rx} {bytes : List Byte} {b : Byte} {c : RxStatus} {n : Half}
    {rest : List Action} (h : s.rx.Advances bytes r) (hb : rxStep r b = some (r', c, n))
    (hin : s.input = feed (bytes ++ [b]) ++ rest) :
    ∃ t, runsTo (bytes.length + 1) s t ∧ t.rx = r' ∧ t.out.rxStatus = c ∧ t.out.rxFrameLen = n ∧ t.input = rest := by
  rw [feed_append, List.append_assoc] at hin
  obtain ⟨u, hrun, rfl, hinu⟩ := h.runsTo_end rfl hin
  exact ⟨_, (runsTo_add _ 1 s _).2 ⟨u, hrun, (runsTo_one u _).2 (step_push_some hinu hb)⟩, rfl, rfl, rfl, rfl⟩

/-! ## The header of an attempt (R102 to R104) -/

theorem Rx.AtReset.resetCounters_eq {r : Rx} (h : r.AtReset) : r.resetCounters = r := by
  obtain ⟨state, cursor, remaining, checksum, buf, cap⟩ := r
  obtain ⟨rfl, rfl, rfl, rfl⟩ := h
  rfl

/-- The delimiter opens an attempt. -/
theorem Rx.AtReset.advances_delimiter {r : Rx} (h : r.AtReset) :
    r.Advances [delimiter] { r with state := .receivingLengthMsb } := by
  obtain ⟨hstate, -⟩ := h
  exact .cons (rxStep_sync hstate) RxState.noConfusion (.nil _)

theorem Rx.Advances.append {r u r' : Rx} {p q : List Byte} (hp : r.Advances p u) (hq : u.Advances q r') :
    r.Advances (p ++ q) r' := by
  induction hp with
  | nil => exact hq
  | cons hstep hinside _ ih => exact .cons hstep hinside (ih hq)

/-- A high length byte within the capacity is loaded after the delimiter. -/
theorem Rx.AtReset.advances_msb {r : Rx} {hi : Byte} (h : r.AtReset) (hc : hi.toNat * 256 ≤ r.cap.toNat) :
    r.Advances [delimiter, hi] { r with remaining := lengthHigh hi, state := .receivingLengthLsb } :=
  h.advances_delimiter.append (.cons (rxStep_msb rfl hc) RxState.noConfusion (.nil _))

/-- The length that the two bytes declare (R78). -/
theorem declaredLength_toNat (hi lo : Byte) :
    (lengthWithLow (lengthHigh hi) lo).toNat = hi.toNat * 256 + lo.toNat := by
  rw [lengthWithLow_toNat_of_aligned lo (lengthHigh_aligned hi), lengthHigh_toNat]

/-- Settles O20: the header goes on up to the length byte that exceeds the capacity, and the rejection there returns the
registers to the values they started from. -/
theorem oversizeAttemptIsRejected : Obligations.OversizeAttemptIsRejected := by
  intro s hi lo rest hreset hin
  refine ⟨fun hover => ?highByte, fun hfits hover => ?lowByte⟩
  case highByte =>
    obtain ⟨t, hrun, hrx, hstatus, hlen, -⟩ := hreset.advances_delimiter.runsTo_push
      (rxStep_msb_reject rfl hover) (rest := feed [lo] ++ rest) hin
    exact ⟨t, hrun, hstatus, hlen, hrx.trans hreset.resetCounters_eq⟩
  case lowByte =>
    obtain ⟨t, hrun, hrx, hstatus, hlen, -⟩ := (hreset.advances_msb hfits).runsTo_push
      (rxStep_lsb_reject rfl (by rw [declaredLength_toNat]; exact hover)) hin
    exact ⟨t, hrun, hstatus, hlen, hrx.trans hreset.resetCounters_eq⟩

/-! ## The payload of an attempt (R105, R110) -/

/-- The receiver is past the header of an attempt: it holds the payload bytes `got`, and `left` more are to come. -/
structure Rx.Collecting (r : Rx) (got : List Byte) (left : Nat) : Prop where
  inv : r.Inv
  state : r.state = if left = 0 then .receivingChecksum else .receivingData
  cursor : r.cursor.toNat = got.length
  remaining : r.remaining.toNat = left
  bytes : r.bytes got.length = got

/-- Before the checksum byte, the sum is that of the payload (I-e of R27). -/
theorem Rx.Collecting.checksum_eq {r : Rx} {data : List Byte} (h : r.Collecting data 0) :
    r.checksum = payloadSum data := by
  obtain ⟨-, hphase⟩ := h.inv
  simp only [h.state] at hphase
  obtain ⟨-, hsum⟩ := hphase
  rw [hsum, h.cursor, h.bytes]

/-- The low length byte, within the capacity, begins the payload. -/
theorem rxStep_lsb_collecting {r : Rx} {hi lo : Byte} (h : r.AtReset)
    (hc : hi.toNat * 256 + lo.toNat ≤ r.cap.toNat) :
    ∃ u, rxStep { r with remaining := lengthHigh hi, state := .receivingLengthLsb } lo = some (u, .none, 0) ∧
      u.Collecting [] (hi.toNat * 256 + lo.toNat) := by
  obtain ⟨-, hcursor, -, hsum⟩ := h
  have hstep := rxStep_lsb (r := { r with remaining := lengthHigh hi, state := .receivingLengthLsb }) (b := lo) rfl
    (by rw [declaredLength_toNat]; exact hc)
  refine ⟨_, hstep, rxStep_keeps_inv ?_ hstep, ?_, ?_, declaredLength_toNat hi lo, rfl⟩
  · refine ⟨by rw [hcursor]; exact Nat.zero_le _, hcursor, hsum, ?_, ?_⟩
    · exact lengthHigh_aligned hi
    · rw [BitVec.le_def, lengthHigh_toNat]; exact (Nat.le_add_right _ _).trans hc
  · simp only [lengthWithLow_eq_zero_iff lo (lengthHigh_aligned hi), lengthHigh_toNat]
  · simp [hcursor]

/-- A payload byte is taken, whatever its value. -/
theorem Rx.Collecting.exists_rxStep {r : Rx} {got : List Byte} {left : Nat} (h : r.Collecting got (left + 1))
    (b : Byte) :
    ∃ u, rxStep r b = some (u, .none, 0) ∧ u.Collecting (got ++ [b]) left := by
  have hdata : r.state = .receivingData := h.state
  obtain ⟨-, hphase⟩ := h.inv
  simp only [hdata] at hphase
  obtain ⟨-, hfit, -⟩ := hphase
  have hremaining := h.remaining
  have hmore : 0 < r.remaining - 1 ↔ ¬ left = 0 := by bv_omega
  have hcursor : (r.cursor + 1).toNat = (got ++ [b]).length := by
    rw [List.length_append, List.length_singleton, ← h.cursor]
    bv_omega
  have hstep := rxStep_data (b := b) hdata (by omega)
  refine ⟨_, hstep, rxStep_keeps_inv h.inv hstep, by simp only [hmore, ite_not], hcursor, by bv_omega, ?_⟩
  rw [List.length_append, ← h.cursor]
  exact (Rx.bytes_write_succ r r.cursor.toNat b).trans (by rw [h.cursor, h.bytes])

theorem Rx.Collecting.inside {r : Rx} {got : List Byte} {left : Nat} (h : r.Collecting got left) :
    r.state ≠ .waitingForDelimiter := by
  rw [h.state]
  split <;> decide

/-- Any bytes, as many as are to come, are taken as the payload. -/
theorem Rx.Collecting.advances {r : Rx} {got data : List Byte} (h : r.Collecting got data.length) :
    ∃ r', r.Advances data r' ∧ r'.Collecting (got ++ data) 0 := by
  induction data generalizing r got with
  | nil => exact ⟨r, .nil r, by simpa using h⟩
  | cons b data ih =>
    obtain ⟨u, hstep, hu⟩ := h.exists_rxStep b
    obtain ⟨r', hadv, hr'⟩ := ih hu
    exact ⟨r', .cons hstep hu.inside hadv, by simpa using hr'⟩

/-- From the delimiter to the last payload byte an attempt within the capacity goes on, whatever the bytes. -/
theorem Rx.AtReset.advances_attempt {r : Rx} {hi lo : Byte} {data : List Byte} (h : r.AtReset)
    (hlen : data.length = hi.toNat * 256 + lo.toNat) (hc : data.length ≤ r.cap.toNat) :
    ∃ r', r.Advances ([delimiter, hi, lo] ++ data) r' ∧ r'.Collecting data 0 := by
  obtain ⟨u, hlsb, hu⟩ := rxStep_lsb_collecting (hi := hi) (lo := lo) h (hlen ▸ hc)
  rw [← hlen] at hu
  obtain ⟨r', hadv, hr'⟩ := hu.advances
  exact ⟨r', (h.advances_msb (by omega)).append (.cons hlsb hu.inside hadv), hr'⟩

/-- The checksum byte ends the attempt, and its comparison alone decides the report (R106). -/
theorem Rx.Collecting.exists_rxStep_checksum {r : Rx} {data : List Byte} (h : r.Collecting data 0) (c : Byte) :
    ∃ status len, rxStep r c = some (r.resetCounters, status, len) ∧
      (c = 0xFF - payloadSum data → status = .frameAccepted ∧ len.toNat = data.length) ∧
      (c ≠ 0xFF - payloadSum data → status = .checksumRejected ∧ len = 0) := by
  by_cases hc : c = 0xFF - payloadSum data
  · refine ⟨_, _, rxStep_accept h.state ?_, fun _ => ⟨rfl, h.cursor⟩, fun hne => absurd hc hne⟩
    rw [h.checksum_eq]; exact hc
  · refine ⟨_, _, rxStep_reject h.state ?_, fun heq => absurd heq hc, fun _ => ⟨rfl, rfl⟩⟩
    rw [h.checksum_eq]; exact hc

/-- Settles O19: the header and the payload go on, and the checksum byte reports. -/
theorem attemptTakesDeclaredLength : Obligations.AttemptTakesDeclaredLength := by
  intro s hi lo c data rest hreset hlen hcap hin
  obtain ⟨r, hadv, hr⟩ := hreset.advances_attempt hlen hcap
  refine ⟨fun k hpos hk => ?inside, ?last⟩
  case inside =>
    rw [feed_append, List.append_assoc] at hin
    exact hadv.runsTo_inside rfl hin k hpos (by simpa using hk)
  case last =>
    obtain ⟨status, len, hstep, hreport⟩ := hr.exists_rxStep_checksum c
    obtain ⟨t, hrun, hrx, rfl, rfl, hinput⟩ := hadv.runsTo_push hstep hin
    refine ⟨t, by simpa using hrun, ?_, ?_, hinput, hreport⟩
    · rw [hrx]; exact ⟨rfl, rfl, rfl, rfl⟩
    · exact (Rx.bytes_congr (by rw [hrx]; rfl) _).trans hr.bytes

/-! ## The wire frame (R70, R111, R112) -/

/-- The two length bytes of a payload that a 16-bit capacity holds. -/
theorem frame_lengthBytes {n : Nat} {cap : Half} (h : n ≤ cap.toNat) :
    n = (BitVec.ofNat 8 (n / 256)).toNat * 256 + (BitVec.ofNat 8 (n % 256)).toNat := by
  have := cap.isLt
  simp only [BitVec.toNat_ofNat]
  omega

/-- Settles O21: a frame is an attempt whose last byte is the checksum that O19 asks for. -/
theorem roundTripOfFrame : Obligations.RoundTripOfFrame := by
  intro s payload rest hreset hcap hin
  obtain ⟨hinside, t, hrun, htreset, hbytes, -, haccept, -⟩ :=
    attemptTakesDeclaredLength s _ _ _ payload rest hreset (frame_lengthBytes hcap) hcap hin
  obtain ⟨hstatus, hlen⟩ := haccept rfl
  refine ⟨fun k hpos hk => ?inside, t, hrun, hstatus, hlen, hbytes, ?accepted, htreset⟩
  case inside =>
    obtain ⟨u, hu, hnone, hzero, -⟩ := hinside k hpos hk
    exact ⟨u, hu, hnone, hzero⟩
  case accepted => simp only [State.acceptedFrame, hstatus, hlen, hbytes]

/-- Changing one byte changes the sum by the difference of the two bytes. -/
theorem payloadSum_set {payload : List Byte} {i : Nat} {b : Byte} (h : payload[i]? = some b) (v : Byte) :
    payloadSum (payload.set i v) + b = payloadSum payload + v := by
  obtain ⟨hi, rfl⟩ := List.getElem?_eq_some_iff.1 h
  rw [List.set_eq_take_append_cons_drop, if_pos hi]
  conv_rhs => rw [← List.take_append_drop i payload, List.drop_eq_getElem_cons hi]
  simp only [payloadSum_append, payloadSum_cons]
  ac_rfl

/-- A frame with one byte changed from the fourth on is an attempt of the same length whose checksum byte does not
fit. -/
theorem frame_set_exists {payload : List Byte} {offset : Nat} {b v : Byte} (hoffset : 3 ≤ offset)
    (hb : (frame payload)[offset]? = some b) (hv : v ≠ b) :
    ∃ data c, data.length = payload.length ∧ c ≠ 0xFF - payloadSum data ∧
      (frame payload).set offset v
        = [delimiter, BitVec.ofNat 8 (payload.length / 256), BitVec.ofNat 8 (payload.length % 256)] ++ data ++ [c] := by
  obtain ⟨j, rfl⟩ : ∃ j, offset = j + 3 := ⟨offset - 3, by omega⟩
  by_cases hj : j < payload.length
  · have hj' : payload[j]? = some b := by simpa [frame, List.getElem?_append_left hj] using hb
    refine ⟨payload.set j v, 0xFF - payloadSum payload, List.length_set, fun hsum => hv ?_, ?_⟩
    · have hset := payloadSum_set hj' v
      have hsame : payloadSum (payload.set j v) = payloadSum payload :=
        ((BitVec.sub_right_inj _).1 hsum).symm
      rw [hsame] at hset
      exact ((BitVec.add_right_inj _).1 hset).symm
    · simp [frame, List.set_append_left _ _ hj]
  · have hlast : j = payload.length := by
      obtain ⟨hlt, -⟩ := List.getElem?_eq_some_iff.1 hb
      rw [frame_length] at hlt
      omega
    subst hlast
    have hcs : 0xFF - payloadSum payload = b := by simpa [frame] using hb
    exact ⟨payload, v, rfl, hcs ▸ hv, by simp [frame]⟩

/-- A byte with one bit flipped is another byte. -/
theorem xor_bit_ne (b : Byte) {bit : Nat} (h : bit < 8) : b ^^^ BitVec.ofNat 8 (2 ^ bit) ≠ b := by
  intro heq
  have hlt : 2 ^ bit < 2 ^ 8 := Nat.pow_lt_pow_right Nat.one_lt_two h
  have hzero : BitVec.ofNat 8 (2 ^ bit) = 0#8 := by simpa using heq
  have hnat : 2 ^ bit = 0 := by rw [← Nat.mod_eq_of_lt hlt, ← BitVec.toNat_ofNat, hzero]; rfl
  exact (Nat.two_pow_pos bit).ne' hnat

/-- Settles O22: with one bit flipped, the frame is an attempt of the same length whose checksum byte does not fit. -/
theorem oneFlippedBitIsRejected : Obligations.OneFlippedBitIsRejected := by
  intro s payload offset bit b rest hreset hcap hoffset hbit hb hin
  obtain ⟨data, c, hlen, hc, hset⟩ := frame_set_exists hoffset hb (xor_bit_ne b hbit)
  rw [hset] at hin
  rw [← hlen] at hcap hin ⊢
  obtain ⟨hinside, t, hrun, htreset, -, -, -, hreject⟩ :=
    attemptTakesDeclaredLength s _ _ c data rest hreset (frame_lengthBytes hcap) hcap hin
  obtain ⟨hstatus, hzero⟩ := hreject hc
  refine ⟨fun k hpos hk => ?_, t, hrun, hstatus, hzero, htreset⟩
  obtain ⟨u, hu, hnone, hlen0, -⟩ := hinside k hpos hk
  exact ⟨u, hu, hnone, hlen0⟩

/-! ## What the receiver keeps and forgets (R113, R114) -/

/-- A push that reports has returned the counters to their reset values. -/
theorem rxStep_reports {r r' : Rx} {b : Byte} {c : RxStatus} {n : Half} (h : rxStep r b = some (r', c, n))
    (hc : c ≠ .none) : r' = r.resetCounters := by
  cases hs : r.state <;> simp only [rxStep, hs] at h <;> split at h
  case receivingLengthMsb.isTrue | receivingLengthLsb.isTrue | receivingChecksum.isTrue
    | receivingChecksum.isFalse => cases h; rfl
  case receivingData.isFalse => cases h
  all_goals cases h; exact absurd rfl hc

theorem rxOfStrobes_reports {p : Strobes} {r r' : Rx} {c : RxStatus} {n : Half}
    (h : rxOfStrobes p r = some (r', c, n)) (hc : c ≠ .none) : r' = r.resetCounters := by
  unfold rxOfStrobes at h
  split at h
  · cases h; rfl
  split at h
  · exact rxStep_reports h hc
  · cases h; exact absurd rfl hc

theorem step_reports {s t : State} (h : step s = .next t) (hc : t.out.rxStatus ≠ .none) : t.rx.AtReset := by
  obtain ⟨p, rest, r, c, n, x, v, -, hr, -, rfl⟩ | ⟨-, -, hnone, -⟩ := step_cases h
  · obtain rfl := rxOfStrobes_reports hr hc
    exact ⟨rfl, rfl, rfl, rfl⟩
  · exact absurd hnone hc

/-- A push on two receivers that differ at most in buffer bytes leaves two such receivers and reports the same: no
comparison of a push reads the buffer. -/
theorem Rx.SameButBuf.exists_rxStep {r r' u : Rx} {b : Byte} {c : RxStatus} {n : Half} (h : r.SameButBuf r')
    (hu : rxStep r b = some (u, c, n)) : ∃ u', rxStep r' b = some (u', c, n) ∧ u.SameButBuf u' := by
  obtain ⟨state, cursor, remaining, checksum, buf, cap⟩ := r
  obtain ⟨state', cursor', remaining', checksum', buf', cap'⟩ := r'
  obtain ⟨rfl, rfl, rfl, rfl, rfl⟩ := h
  cases state <;> simp only [rxStep] at hu ⊢ <;> split at hu
  case receivingData.isFalse => cases hu
  case waitingForDelimiter.isTrue hc | receivingLengthMsb.isTrue hc | receivingLengthLsb.isTrue hc
    | receivingData.isTrue hc | receivingChecksum.isTrue hc =>
    cases hu
    exact ⟨_, if_pos hc, rfl, rfl, rfl, rfl, rfl⟩
  case waitingForDelimiter.isFalse hc | receivingLengthMsb.isFalse hc | receivingLengthLsb.isFalse hc
    | receivingChecksum.isFalse hc =>
    cases hu
    exact ⟨_, if_neg hc, rfl, rfl, rfl, rfl, rfl⟩

/-- Two machines that have the same `bytes` to push next, and whose receivers differ at most in buffer bytes; the first
meets R27, which is enough for both to go on. -/
structure PushingAlike (bytes : List Byte) (rest rest' : List Action) (s s' : State) : Prop where
  inv : s.rx.Inv
  same : s.rx.SameButBuf s'.rx
  input : s.input = feed bytes ++ rest
  input' : s'.input = feed bytes ++ rest'

theorem PushingAlike.exists_step {b : Byte} {bytes : List Byte} {rest rest' : List Action} {s s' : State}
    (h : PushingAlike (b :: bytes) rest rest' s s') :
    ∃ t t', step s = .next t ∧ step s' = .next t' ∧ PushingAlike bytes rest rest' t t' ∧
      t.out.rxStatus = t'.out.rxStatus ∧ t.out.rxFrameLen = t'.out.rxFrameLen := by
  obtain ⟨⟨r, c, n⟩, hr⟩ := rxStep_goesOn b h.inv
  obtain ⟨r', hr', hsame⟩ := h.same.exists_rxStep hr
  exact ⟨_, _, step_push_some h.input hr, step_push_some h.input' hr',
    ⟨rxStep_keeps_inv h.inv hr, hsame, rfl, rfl⟩, rfl, rfl⟩

/-- Two machines that push alike go on alike, push by push. -/
theorem PushingAlike.exists_runsTo {bytes : List Byte} {rest rest' : List Action} {s s' : State}
    (h : PushingAlike bytes rest rest' s s') (k : Nat) (hk : k ≤ bytes.length) :
    ∃ t t', runsTo k s t ∧ runsTo k s' t' ∧ PushingAlike (bytes.drop k) rest rest' t t' ∧
      (1 ≤ k → t.out.rxStatus = t'.out.rxStatus ∧ t.out.rxFrameLen = t'.out.rxFrameLen) := by
  induction k with
  | zero => exact ⟨s, s', (runsTo_zero s s).2 rfl, (runsTo_zero s' s').2 rfl, h, by simp⟩
  | succ k ih =>
    obtain ⟨u, u', hu, hu', halike, -⟩ := ih (by omega)
    rw [List.drop_eq_getElem_cons hk] at halike
    obtain ⟨t, t', ht, ht', halike', hout⟩ := halike.exists_step
    exact ⟨t, t', (runsTo_add k 1 s t).2 ⟨u, hu, (runsTo_one u t).2 ht⟩,
      (runsTo_add k 1 s' t').2 ⟨u', hu', (runsTo_one u' t').2 ht'⟩, halike', fun _ => hout⟩

/-- Settles O23: a report resets the counters; and no push reads the buffer, so two receivers that differ there alone go
on alike. -/
theorem completedAttemptLeavesFreshReceiver : Obligations.CompletedAttemptLeavesFreshReceiver := by
  refine ⟨fun s t => step_reports, fun s s' bytes rest rest' hi _ hsame hin hin' k hk => ?_⟩
  have halike : PushingAlike bytes rest rest' s s' := ⟨hi, hsame, hin, hin'⟩
  obtain ⟨t, t', ht, ht', hafter, hout⟩ := halike.exists_runsTo k hk
  exact ⟨t, t', ht, ht', hafter.same, hout⟩

/-- A step whose call is neither a push nor a reset keeps the receiver. -/
theorem step_keeps_rx {s t : State} (h : step s = .next t)
    (hno : ∀ a, s.input.head? = some a → a.pushes = false ∧ a.resets = false) : t.rx = s.rx := by
  obtain ⟨p, rest, r, c, n, x, v, hin, hr, -, rfl⟩ | ⟨-, hrx, -⟩ := step_cases h
  · obtain ⟨hpush, hreset⟩ := hno (.strobe p) (by rw [hin]; rfl)
    have hreset : p.reset = false := hreset
    have hpush : p.push = none := by simpa [Action.pushes, hreset] using hpush
    simp only [rxOfStrobes, hreset, hpush] at hr
    cases hr
    rfl
  · exact hrx

/-- Settles O24: step by step, by the calls that each step takes. -/
theorem receiverHoldsBetweenPushes : Obligations.ReceiverHoldsBetweenPushes := by
  intro k s t hno h
  induction k generalizing s with
  | zero => rw [(runsTo_zero s t).1 h]
  | succ k ih =>
    obtain ⟨u, hu, hrun⟩ := (runsTo_succ k s t).1 h
    obtain ⟨-, -, hinput⟩ := step_keeps_params hu
    have hrest : u.input.take k = (s.input.take (k + 1)).drop 1 := by
      rw [List.drop_take, List.drop_one, hinput, Nat.add_sub_cancel]
    have hlater : t.rx = u.rx := ih u (fun a ha => hno a (List.mem_of_mem_drop (hrest ▸ ha))) hrun
    refine hlater.trans (step_keeps_rx hu fun a ha => hno a ?_)
    obtain ⟨rest, hin⟩ := List.head?_eq_some_iff.1 ha
    simp [hin]

end Sys2Proof.Machine
end

section
/-! Proofs of family 41_serializer: `serialize(L)` and `next()` phase by phase (O26, O27, O28, O30, O32), the whole
sequence (O31), and a payload byte that differs (O33). -/

namespace Sys2Proof.Machine

/-! ## The serializer's operations (R130 to R137, R139, R140) -/

/-- Settles O26: `L` against `TX_CAP` is the one test of TX_START. -/
theorem serializeStartsFreshSequence : Obligations.SerializeStartsFreshSequence := by
  intro len s
  exact ⟨fun hfits => if_pos (BitVec.le_def.2 hfits),
    fun hover => if_neg fun hle => Nat.not_lt.2 (BitVec.le_def.1 hle) hover⟩

/-- The serializer right after `serialize(L)` (R130). -/
def Tx.started (t : Tx) (len : Half) : Tx :=
  { t with len := len, index := 0, sum := 0, phase := .txDelimiter }

/-- What `serialize(L)` leaves in the serializer when it goes on. -/
theorem exec_txStart_next {len : Half} {s t : State} (h : exec (.txStart len) s = .next t) :
    t.tx = s.tx.started len := by
  simp only [exec, execTxStart] at h
  split at h <;> cases h
  rfl

/-- Settles O32: `serialize(L)` sets every register, and what it leaves is equal by the premises. -/
theorem restartForgetsEarlierSequence : Obligations.RestartForgetsEarlierSequence := by
  intro s s' t t' len hpayload hdraw hcap h h'
  rw [exec_txStart_next h, exec_txStart_next h']
  simp only [Tx.started, hpayload, hdraw, hcap]

theorem hiByte_eq_ofNat (v : Half) : hiByte v = BitVec.ofNat 8 (v.toNat / 256) := by
  rw [← hiByte_toNat, BitVec.ofNat_toNat, BitVec.setWidth_eq]

theorem loByte_eq_ofNat (v : Half) : loByte v = BitVec.ofNat 8 (v.toNat % 256) := by
  rw [← loByte_toNat, BitVec.ofNat_toNat, BitVec.setWidth_eq]

theorem checksumByte_eq_ofNat (sum : Byte) : checksumByte sum = BitVec.ofNat 8 (255 - sum.toNat) := by
  rw [← checksumByte_toNat, BitVec.ofNat_toNat, BitVec.setWidth_eq]

/-- Settles O27: the two length bytes are the quotient and the remainder by 256. -/
theorem headerBytesAreEmitted : Obligations.HeaderBytesAreEmitted := by
  intro s
  have hempty : s.tx.len = 0 ↔ s.tx.len.toNat = 0 := BitVec.toNat_inj.symm
  refine ⟨rfl, ?msb, ?lsb⟩
  case msb => rw [← hiByte_eq_ofNat]; rfl
  case lsb => rw [← loByte_eq_ofNat]; simp only [← hempty]; rfl

/-- Settles O28: below `TX_CAP` the index does not wrap. -/
theorem dataByteIsEmittedAndSummed : Obligations.DataByteIsEmittedAndSummed := by
  intro s hindex
  have hsucc : (s.tx.index + 1).toNat = s.tx.index.toNat + 1 := by bv_omega
  refine ⟨_, if_pos (BitVec.lt_def.2 hindex), addChecksum_toNat _ _, hsucc, ?phase, rfl, rfl, rfl, fun _ => rfl, rfl⟩
  case phase => simp only [BitVec.lt_def, hsucc]

/-- Settles O30: the complement to `0xFF` does not borrow. -/
theorem checksumByteEndsSequence : Obligations.ChecksumByteEndsSequence := by
  intro s
  refine ⟨?checksum, rfl⟩
  case checksum => rw [← checksumByte_eq_ofNat]; rfl

/-! ## What successive calls of `next()` return (R131) -/

/-- One call of `next()` after another brings a serializer from the first state to the second, and the calls return the
listed results in order. -/
inductive Tx.Emits (t : Tx) : List (Option Byte) → Tx → Prop where
  | nil : Tx.Emits t [] t
  | snoc {u t' : Tx} {outs : List (Option Byte)} {v : Option Byte} (hbefore : Tx.Emits t outs u)
      (hstep : txNext u = some (t', v)) : Tx.Emits t (outs ++ [v]) t'

theorem Tx.Emits.append {t u t' : Tx} {p q : List (Option Byte)} (hp : t.Emits p u) (hq : u.Emits q t') :
    t.Emits (p ++ q) t' := by
  induction hq with
  | nil => simpa using hp
  | snoc _ hstep ih => rw [← List.append_assoc]; exact ih.snoc hstep

/-- Each result on the list is what the call returns that comes after those before it. -/
theorem Tx.Emits.exists_getElem {t t' : Tx} {outs : List (Option Byte)} (h : t.Emits outs t') (k : Nat)
    (hk : k < outs.length) : ∃ u u', t.Emits (outs.take k) u ∧ txNext u = some (u', outs[k]) := by
  induction h with
  | nil => exact absurd hk (Nat.not_lt_zero k)
  | @snoc u t' outs v hbefore hstep ih =>
    rcases Nat.lt_or_eq_of_le (Nat.le_of_lt_succ (by simpa using hk)) with hlt | rfl
    · simpa [hlt, List.take_append_of_le_length hlt.le] using ih hlt
    · exact ⟨u, t', by simpa using hbefore, by simpa using hstep⟩

theorem drain_add (m n : Nat) : drain (m + n) = drain m ++ drain n :=
  List.replicate_add m n nextCall

/-- A `next()` that goes on is a step of the machine. -/
theorem step_next_some {s : State} {rest : List Action} {t : Tx} {v : Option Byte}
    (hin : s.input = nextCall :: rest) (h : txNext s.tx = some (t, v)) :
    step s = .next ((s.begin rest).emitted t v) := by
  rw [step_next hin, h]

/-- As many calls of `next()` as results are listed run through and end in the second state. -/
theorem Tx.Emits.runsTo_end {s : State} {t : Tx} {outs : List (Option Byte)} (h : s.tx.Emits outs t)
    {rest : List Action} (hin : s.input = drain outs.length ++ rest) :
    ∃ u, runsTo outs.length s u ∧ u.tx = t ∧ u.rx = s.rx ∧ u.input = rest := by
  induction h generalizing rest with
  | nil => exact ⟨s, (runsTo_zero s s).2 rfl, rfl, rfl, hin⟩
  | snoc _ hstep ih =>
    rw [List.length_append, List.length_singleton] at hin ⊢
    rw [drain_add, List.append_assoc] at hin
    obtain ⟨u, hrun, rfl, hrx, hinput⟩ := ih hin
    exact ⟨_, (runsTo_add _ 1 s _).2 ⟨u, hrun, (runsTo_one u _).2 (step_next_some hinput hstep)⟩, rfl, hrx, rfl⟩

/-- After the listed calls, one `next()` more ends as its own result says. -/
theorem Tx.Emits.runsTo_next {s : State} {t t' : Tx} {outs : List (Option Byte)} {v : Option Byte} {k n : Nat}
    {rest : List Action} (h : s.tx.Emits outs t) (hstep : txNext t = some (t', v)) (hlen : outs.length = k)
    (hin : s.input = drain n ++ rest) (hk : k < n) :
    ∃ u, runsTo (k + 1) s u ∧ u.tx = t' ∧ u.out.txByte = v ∧ u.rx = s.rx := by
  subst hlen
  obtain ⟨later, rfl⟩ : ∃ later, n = outs.length + (1 + later) := ⟨n - outs.length - 1, by omega⟩
  rw [drain_add, drain_add 1, List.append_assoc, List.append_assoc] at hin
  obtain ⟨u, hrun, rfl, hrx, hinput⟩ := h.runsTo_end hin
  exact ⟨_, (runsTo_add _ 1 s _).2 ⟨u, hrun, (runsTo_one u _).2 (step_next_some hinput hstep)⟩, rfl, rfl, hrx⟩

theorem txNext_idle {t : Tx} (h : t.phase = .txIdle) : txNext t = some (t, none) := by
  simp only [txNext, h]

/-- In TxIdle every call returns nothing and leaves the serializer as it is (R137). -/
theorem Tx.emits_idle {t : Tx} (h : t.phase = .txIdle) (n : Nat) : t.Emits (List.replicate n none) t := by
  induction n with
  | zero => exact .nil
  | succ n ih => rw [List.replicate_succ']; exact ih.snoc (txNext_idle h)

/-! ## The payload and the checksum byte (R135, R136) -/

/-- `next()` in TxData, with the index below `TX_CAP` (R135). -/
theorem txNext_data {t : Tx} (h : t.phase = .txData) (hc : t.index.toNat < t.cap.toNat) :
    txNext t = some ({ t with
      sum := addChecksum t.sum (t.read t.index.toNat)
      index := t.index + 1
      phase := if t.index + 1 < t.len then .txData else .txChecksum }, some (t.read t.index.toNat)) := by
  simp only [txNext, h]
  exact if_pos (BitVec.lt_def.2 hc)

/-- The next `n` payload bytes from the index on. -/
def Tx.ahead (t : Tx) (n : Nat) : List Byte := (List.range n).map fun i => t.read (t.index.toNat + i)

@[simp] theorem Tx.ahead_length (t : Tx) (n : Nat) : (t.ahead n).length = n := by simp [Tx.ahead]

theorem Tx.ahead_succ (t : Tx) (n : Nat) : t.ahead (n + 1) = t.ahead n ++ [t.read (t.index.toNat + n)] := by
  simp [Tx.ahead, List.range_succ]

/-- The bytes ahead of index 0 are the payload from its start. -/
theorem Tx.ahead_eq_bytes {t : Tx} (h : t.index = 0) (n : Nat) : t.ahead n = t.bytes n := by
  simp [Tx.ahead, Tx.bytes, h]

/-- The phase at the index: TxData while there are bytes to come, then TxChecksum (R134, R135). -/
def Tx.InPayload (t : Tx) : Prop :=
  t.phase = if t.index.toNat < t.len.toNat then .txData else .txChecksum

/-- The serializer after `n` payload bytes more (R135). -/
def Tx.afterData (t : Tx) (n : Nat) : Tx :=
  { t with
    index := t.index + BitVec.ofNat 16 n
    sum := t.sum + payloadSum (t.ahead n)
    phase := if t.index.toNat + n < t.len.toNat then .txData else .txChecksum }

theorem Tx.InPayload.afterData_zero {t : Tx} (h : t.InPayload) : t.afterData 0 = t := by
  obtain ⟨phase, index, sum, len, payload, cap, draw⟩ := t
  have hphase : phase = _ := h
  simp [Tx.afterData, Tx.ahead, hphase]

/-- Within `tx.len` the index does not wrap (R9). -/
theorem Tx.afterData_index_toNat {t : Tx} {n : Nat} (h : t.index.toNat + n ≤ t.len.toNat) :
    (t.afterData n).index.toNat = t.index.toNat + n := by
  have := t.len.isLt
  simp only [Tx.afterData, BitVec.toNat_add, BitVec.toNat_ofNat]
  omega

theorem Tx.txNext_afterData {t : Tx} {n : Nat} (hcap : t.len.toNat ≤ t.cap.toNat)
    (hn : t.index.toNat + n < t.len.toNat) :
    txNext (t.afterData n) = some (t.afterData (n + 1), some (t.read (t.index.toNat + n))) := by
  have hphase : (t.afterData n).phase = .txData := if_pos hn
  have hindex := Tx.afterData_index_toNat hn.le
  have hsucc : (t.afterData (n + 1)).index.toNat = _ := Tx.afterData_index_toNat hn
  have hnext : (t.afterData n).index + 1 = (t.afterData (n + 1)).index := by bv_omega
  have hread : (t.afterData n).read (t.afterData n).index.toNat = t.read (t.index.toNat + n) := by rw [hindex]; rfl
  have hsum : addChecksum (t.afterData n).sum (t.read (t.index.toNat + n)) = (t.afterData (n + 1)).sum := by
    simp only [Tx.afterData, addChecksum, Tx.ahead_succ, payloadSum_snoc, BitVec.add_assoc]
  rw [txNext_data hphase (by rw [hindex]; exact hn.trans_le hcap)]
  simp only [hread, hsum, hnext, BitVec.lt_def, hsucc]
  rfl

/-- The calls in the payload return its bytes as they stand, one after the other (R135, R215). -/
theorem Tx.InPayload.emits_data {t : Tx} (h : t.InPayload) (hcap : t.len.toNat ≤ t.cap.toNat) (n : Nat)
    (hn : t.index.toNat + n ≤ t.len.toNat) : t.Emits ((t.ahead n).map some) (t.afterData n) := by
  induction n with
  | zero => rw [h.afterData_zero]; exact .nil
  | succ n ih =>
    rw [Tx.ahead_succ, List.map_append]
    exact (ih (Nat.le_of_succ_le hn)).snoc (Tx.txNext_afterData hcap hn)

/-- After the last payload byte the checksum byte ends the sequence (R136). -/
theorem Tx.txNext_afterData_last {t : Tx} {n : Nat} (hn : t.index.toNat + n = t.len.toNat) :
    txNext (t.afterData n)
      = some ({ t.afterData n with phase := .txIdle }, some (0xFF - (t.sum + payloadSum (t.ahead n)))) := by
  have hphase : (t.afterData n).phase = .txChecksum := if_neg (by omega)
  simp only [txNext, hphase]
  rfl

/-- The serializer after the header (R132 to R134): an empty payload skips TxData. -/
def Tx.afterHeader (t : Tx) : Tx := { t with phase := if t.len = 0 then .txChecksum else .txData }

theorem Tx.emits_header {t : Tx} (h : t.phase = .txDelimiter) :
    t.Emits [some delimiter, some (BitVec.ofNat 8 (t.len.toNat / 256)), some (BitVec.ofNat 8 (t.len.toNat % 256))]
      t.afterHeader := by
  have hdelim : txNext t = some ({ t with phase := .txLengthMsb }, some delimiter) := by simp only [txNext, h]
  rw [← hiByte_eq_ofNat, ← loByte_eq_ofNat]
  exact .snoc (outs := [_, _]) (.snoc (outs := [_]) (.snoc (outs := []) .nil hdelim) rfl) rfl

theorem Tx.afterHeader_inPayload {t : Tx} (h : t.index = 0) : t.afterHeader.InPayload := by
  have hempty : t.len = 0 ↔ ¬ t.index.toNat < t.len.toNat := by rw [h]; bv_omega
  simp only [Tx.InPayload, Tx.afterHeader, hempty, ite_not]

/-- A serializer right after `serialize(L)` returns the bytes of the frame and is then idle (R138). -/
theorem Tx.started_emits_frame {t : Tx} {len : Half} (hcap : len.toNat ≤ t.cap.toNat) :
    ∃ t', (t.started len).Emits ((frame (t.bytes len.toNat)).map some) t' ∧ t'.phase = .txIdle := by
  have hlast : (t.started len).afterHeader.index.toNat + len.toNat = len.toNat := Nat.zero_add _
  have hbytes : (t.started len).afterHeader.ahead len.toNat = t.bytes len.toNat := Tx.ahead_eq_bytes rfl _
  have hsum : (t.started len).afterHeader.sum = 0#8 := rfl
  have hpayload := (Tx.afterHeader_inPayload (t := t.started len) rfl).emits_data hcap _ hlast.le
  have hall := (Tx.emits_header (t := t.started len) rfl).append (hpayload.snoc (Tx.txNext_afterData_last hlast))
  rw [hbytes, hsum, BitVec.zero_add] at hall
  exact ⟨_, by simpa [frame, Tx.started] using hall, rfl⟩

theorem step_serialize_fits {s : State} {len : Half} {rest : List Action} (hin : s.input = serializeCall len :: rest)
    (hfits : len.toNat ≤ s.tx.cap.toNat) :
    ∃ u, step s = .next u ∧ u.tx = s.tx.started len ∧ u.input = rest :=
  ⟨_, (step_serialize hin).trans (if_pos (BitVec.le_def.2 hfits)), rfl, rfl⟩

/-- Settles O31: the calls after `serialize(L)` go through the frame, and then stay idle. -/
theorem sequenceIsTheFrame : Obligations.SequenceIsTheFrame := by
  intro s len more rest hcap hin
  obtain ⟨u, hstart, hstarted, hinput⟩ := step_serialize_fits hin hcap
  obtain ⟨t', hframe, hidle⟩ := Tx.started_emits_frame hcap
  rw [← hstarted] at hframe
  refine ⟨fun k hk => ?inside, fun k hk => ?after⟩
  case inside =>
    obtain ⟨v, v', hbefore, hstep⟩ := hframe.exists_getElem k (by simpa using hk)
    obtain ⟨t, hrun, -, hbyte, -⟩ := hbefore.runsTo_next (k := k) hstep (by simp; omega) hinput (by omega)
    refine ⟨t, (runsTo_succ (k + 1) s t).2 ⟨u, hstart, hrun⟩, ?_⟩
    simp [hbyte]
  case after =>
    obtain ⟨t, hrun, htx, hbyte, -⟩ := (hframe.append (Tx.emits_idle hidle k)).runsTo_next
      (k := len.toNat + 4 + k) (txNext_idle hidle) (by simp) hinput (Nat.add_lt_add_left hk _)
    exact ⟨t, (runsTo_succ _ s t).2 ⟨u, hstart, hrun⟩, hbyte, by rw [htx]; exact hidle⟩

/-- Settles O33: the bytes ahead of the index are read when their turn comes, so the changed payload gives its own. -/
theorem changedPayloadByteIsEmitted : Obligations.ChangedPayloadByteIsEmitted := by
  intro s a v rest hphase hindex hcap hin changed byte
  have hchanged : changed.tx.InPayload := hphase.trans (if_pos hindex).symm
  have hread : ∀ i, changed.tx.read (s.tx.index.toNat + i) = byte i := fun i => Tx.read_write s.tx a _ v
  have hahead : ∀ n, changed.tx.ahead n = (List.range n).map byte := fun n =>
    List.map_congr_left fun i _ => hread i
  refine ⟨fun k hk => ?data, ?checksum⟩
  case data =>
    obtain ⟨t, hrun, htx, hbyte, -⟩ := (hchanged.emits_data hcap k hk.le).runsTo_next
      (k := k) (Tx.txNext_afterData hcap hk) (by simp) hin (by omega)
    refine ⟨t, hrun, hbyte.trans (congrArg some (hread k)), ?_⟩
    rw [htx, ← hahead]
    rfl
  case checksum =>
    have hlast : s.tx.index.toNat + (s.tx.len.toNat - s.tx.index.toNat) = s.tx.len.toNat := by omega
    obtain ⟨t, hrun, htx, hbyte, hrx⟩ := (hchanged.emits_data hcap _ hlast.le).runsTo_next
      (Tx.txNext_afterData_last hlast) (by simp) hin (Nat.lt_succ_self _)
    refine ⟨t, hrun, by rw [htx], hrx, ?_⟩
    rw [hbyte, ← hahead]

end Sys2Proof.Machine
end

section
/-! Proofs of family 42_payload_formats: the two commands are built or do not fit (O41 to O44), the two responses are
parsed (O45, O46), and a consumer probes before it parses (O47). -/

namespace Sys2Proof.Machine

/-! ## The payload buffer after `build` (R151, R156) -/

/-- Bytes written from index 0 on are read back. -/
theorem Tx.bytes_writeAll (t : Tx) (vs : List Byte) :
    Tx.bytes { t with payload := Memory.writeAll t.payload 0 vs } vs.length = vs := by
  apply List.ext_getElem (Tx.bytes_length _ _)
  intro a ha hvs
  simp [Tx.bytes, Tx.read, Memory.find_writeAll, hvs]

/-- A read past the bytes written sees what stood there. -/
theorem Tx.read_writeAll_ge (t : Tx) {vs : List Byte} {a : Nat} (h : vs.length ≤ a) :
    Tx.read { t with payload := Memory.writeAll t.payload 0 vs } a = t.read a := by
  simp [Tx.read, Memory.find_writeAll, Nat.not_lt.2 h]

/-- With no payload byte of a sequence in progress, a message that fits stands at the start of the payload buffer, and
the bytes past it are as before (R151, R215). -/
theorem State.build_exists {s : State} {required : Nat} {layout : List Byte} (hl : layout.length = required)
    (hfits : required ≤ s.tx.cap.toNat) (hfree : s.tx.phase = .txIdle ∨ s.tx.len = 0) :
    ∃ mem : Memory,
      s.build required layout = .next
        { s with
          tx := { s.tx with payload := mem }
          out := { s.out with result := some (.built (BitVec.ofNat 16 required)) } } ∧
      Tx.bytes { s.tx with payload := mem } required = layout ∧
      (∀ a, required ≤ a → Tx.read { s.tx with payload := mem } a = s.tx.read a) := by
  subst hl
  have hsends : s.tx.sends 0 = false :=
    (Tx.sends_eq_false _ _).2 (hfree.imp_right fun hlen => (congrArg BitVec.toNat hlen).le)
  exact ⟨_, State.build_fits layout hfits hsends, Tx.bytes_writeAll _ _, fun a ha => Tx.read_writeAll_ge _ ha⟩

/-! ## The two commands (R152 to R154) -/

/-- Settles O41: the two sizes of the layout, without and with the parameter. -/
theorem atCommandIsBuilt : Obligations.AtCommandIsBuilt := by
  rintro ⟨frameId, name0, name1, parameter⟩ s
  refine ⟨?without, ?withParameter⟩
  case without =>
    rintro rfl hfits hfree
    exact State.build_exists rfl hfits hfree
  case withParameter =>
    rintro p rfl hfits hfree
    exact State.build_exists rfl hfits hfree

/-- Byte `i` of a 64-bit field by division (R51, R153). -/
theorem addrByte_eq_ofNat (a : Addr64) (i : Nat) : addrByte a i = BitVec.ofNat 8 (a.toNat / 2 ^ (56 - 8 * i)) := by
  rw [← Nat.shiftRight_eq_div_pow]
  rfl

/-- The layout of a transmit request in the arithmetic of R9 (R51, R153). -/
theorem TransmitRequest.layout_eq (m : TransmitRequest) :
    m.layout = [0x10, m.frameId]
      ++ (List.range 8).map (fun i => BitVec.ofNat 8 (m.destination.toNat / 2 ^ (56 - 8 * i)))
      ++ [BitVec.ofNat 8 (m.networkAddress.toNat / 256), BitVec.ofNat 8 (m.networkAddress.toNat % 256),
          m.radius, optionsByte m.disableRetries m.enableEncryption m.useExtendedTimeout]
      ++ m.payload := by
  simp only [← addrByte_eq_ofNat, ← hiByte_eq_ofNat, ← loByte_eq_ofNat]
  rfl

/-- Settles O42: `build` writes the layout, whose big-endian fields are quotients by powers of 256. -/
theorem transmitRequestIsBuilt : Obligations.TransmitRequestIsBuilt := by
  intro m s hfits hfree
  rw [← TransmitRequest.layout_eq]
  exact State.build_exists (TransmitRequest.layout_length m) hfits hfree

/-- Settles O43: the size is checked before anything else (R151). -/
theorem bufferTooSmallIsReturned : Obligations.BufferTooSmallIsReturned :=
  ⟨fun m _ hsmall => ⟨_, _, State.build_tooSmall m.layout hsmall⟩,
    fun m _ hsmall => ⟨_, _, State.build_tooSmall m.layout hsmall⟩⟩

/-- An options byte has no bit outside the mask of the three named ones (R154). -/
theorem optionsByte_masked (dr ee et : Bool) : optionsByte dr ee et &&& 0x61 = optionsByte dr ee et := by
  simpa using (optionsByte_of_bits (optionsByte dr ee et)).symm

/-- The mask of the options byte has bits 0, 5 and 6 alone (R154). -/
theorem optionsMask_getLsbD {i : Nat} (h0 : i ≠ 0) (h5 : i ≠ 5) (h6 : i ≠ 6) :
    (0x61 : Byte).getLsbD i = false := by
  have hbyte : ∀ j < 8, j ≠ 0 → j ≠ 5 → j ≠ 6 → (0x61 : Byte).getLsbD j = false := by decide
  by_cases hi : i < 8
  · exact hbyte i hi h0 h5 h6
  · exact BitVec.getLsbD_of_ge _ _ (Nat.le_of_not_lt hi)

/-- Settles O44: the three named bits one by one, and the mask clears every other. -/
theorem optionsByteBits : Obligations.OptionsByteBits := by
  intro dr ee et i
  split_ifs with h0 h5 h6
  · simp [h0]
  · simp [h5]
  · simp [h6]
  · rw [← optionsByte_masked, BitVec.getLsbD_and, optionsMask_getLsbD h0 h5 h6, Bool.and_false]

/-! ## The AT command response (R158, R159, R162) -/

/-- The codes 0 to 4 name the statuses in order, and no other code names one (R159). -/
theorem decodeStatus_eq_getElem? (code : Byte) :
    decodeStatus code = [AtStatus.ok, .error, .invalidCommand, .invalidParameter, .txFailure][code.toNat]? := by
  rw [decodeStatus]
  match code.toNat with
  | 0 | 1 | 2 | 3 | 4 => rfl
  | _ + 5 => rfl

theorem parseAtResponse_size {buffer : List Byte} (h : buffer.length < 5 ∨ 6 < buffer.length) :
    parseAtResponse buffer = .parseError .sizeOutOfRange := by
  unfold parseAtResponse
  split
  · simp at h
  · simp at h
  · rfl

/-- The fields of a buffer of 5 or 6 bytes: the sixth byte is the data (R158). -/
theorem exists_atResponse_fields {buffer : List Byte} (hmin : 5 ≤ buffer.length) (hmax : buffer.length ≤ 6) :
    ∃ (id frameId name0 name1 status : Byte) (data : Option Byte),
      buffer = [id, frameId, name0, name1, status] ++ data.toList := by
  match buffer, hmin, hmax with
  | [id, frameId, name0, name1, status], _, _ => exact ⟨id, frameId, name0, name1, status, none, rfl⟩
  | [id, frameId, name0, name1, status, data], _, _ => exact ⟨id, frameId, name0, name1, status, some data, rfl⟩

theorem parseAtResponse_fields (id frameId name0 name1 status : Byte) (data : Option Byte) :
    parseAtResponse ([id, frameId, name0, name1, status] ++ data.toList)
      = atResponseOf id frameId name0 name1 status data := by
  cases data <;> rfl

theorem atResponseOf_badStatus {frameId name0 name1 status : Byte} {data : Option Byte}
    (h : decodeStatus status = none) :
    atResponseOf idAtCommandResponse frameId name0 name1 status data = .parseError .invalidEnumValue := by
  rw [atResponseOf, if_pos rfl, h]

theorem atResponseOf_status {frameId name0 name1 status : Byte} {data : Option Byte} {st : AtStatus}
    (h : decodeStatus status = some st) :
    atResponseOf idAtCommandResponse frameId name0 name1 status data
      = .atResponse ⟨frameId, name0, name1, st, data⟩ := by
  rw [atResponseOf, if_pos rfl, h]

/-- Settles O45: a buffer of 5 or 6 bytes is taken apart into its fields; then the identifier and the status decide. -/
theorem atResponseIsParsed : Obligations.AtResponseIsParsed := by
  intro buffer s
  refine ⟨parseAtResponse buffer, rfl, parseAtResponse_size, ?identifier, ?badStatus, ?parsed⟩
  case identifier =>
    intro hmin hmax hid
    obtain ⟨id, frameId, name0, name1, status, data, rfl⟩ := exists_atResponse_fields hmin hmax
    rw [parseAtResponse_fields]
    exact if_neg fun h => hid (congrArg some h)
  case badStatus =>
    intro c hmin hmax hid hc hcode
    obtain ⟨id, frameId, name0, name1, status, data, rfl⟩ := exists_atResponse_fields hmin hmax
    cases hid
    cases hc
    have hnone : decodeStatus c = none := (decodeStatus_eq_getElem? c).trans (List.getElem?_eq_none hcode)
    rw [parseAtResponse_fields]
    exact atResponseOf_badStatus hnone
  case parsed =>
    intro c hmin hmax hid hc hcode
    obtain ⟨id, frameId, name0, name1, status, data, rfl⟩ := exists_atResponse_fields hmin hmax
    cases hid
    cases hc
    have hst := List.getElem?_eq_getElem (l := [AtStatus.ok, .error, .invalidCommand, .invalidParameter, .txFailure])
      (Nat.lt_succ_of_le hcode)
    rw [parseAtResponse_fields]
    refine ⟨_, atResponseOf_status ((decodeStatus_eq_getElem? c).trans hst), rfl, rfl, rfl, ?sixthByte, hst.symm⟩
    case sixthByte => cases data <;> rfl

/-! ## The receive packet (R160 to R162) -/

theorem parseZigbee_size {buffer : List Byte} (h : buffer.length < 12) :
    parseZigbee buffer = .parseError .sizeOutOfRange := by
  unfold parseZigbee
  split
  · simp only [List.length_cons] at h
    omega
  · rfl

/-- The fields of a buffer of at least 12 bytes (R160). -/
theorem exists_zigbee_fields {buffer : List Byte} (h : 12 ≤ buffer.length) :
    ∃ (id a0 a1 a2 a3 a4 a5 a6 a7 n0 n1 flags : Byte) (payload : List Byte),
      buffer = id :: [a0, a1, a2, a3, a4, a5, a6, a7] ++ n0 :: n1 :: flags :: payload := by
  match buffer, h with
  | id :: a0 :: a1 :: a2 :: a3 :: a4 :: a5 :: a6 :: a7 :: n0 :: n1 :: flags :: payload, _ =>
    exact ⟨id, a0, a1, a2, a3, a4, a5, a6, a7, n0, n1, flags, payload, rfl⟩

/-- The bytes of a big-endian address are the quotients that R153 and R160 name. -/
theorem joinAddr_getElem? (b0 b1 b2 b3 b4 b5 b6 b7 : Byte) {i : Nat} (hi : i < 8) :
    [b0, b1, b2, b3, b4, b5, b6, b7][i]?
      = some (BitVec.ofNat 8 ((joinAddr b0 b1 b2 b3 b4 b5 b6 b7).toNat / 2 ^ (56 - 8 * i))) := by
  rw [← addrByte_joinAddr b0 b1 b2 b3 b4 b5 b6 b7, ← addrByte_eq_ofNat]
  change ((List.range 8).map _)[i]? = _
  simp [hi]

/-- Settles O46: a buffer of 12 bytes or more is taken apart into its fields, and then the identifier decides. -/
theorem zigbeePacketIsParsed : Obligations.ZigbeePacketIsParsed := by
  intro buffer s
  refine ⟨parseZigbee buffer, rfl, parseZigbee_size, ?identifier, ?parsed⟩
  case identifier =>
    intro hmin hid
    obtain ⟨id, a0, a1, a2, a3, a4, a5, a6, a7, n0, n1, flags, payload, rfl⟩ := exists_zigbee_fields hmin
    exact if_neg fun h => hid (congrArg some h)
  case parsed =>
    intro hmin hid
    obtain ⟨id, a0, a1, a2, a3, a4, a5, a6, a7, n0, n1, flags, payload, rfl⟩ := exists_zigbee_fields hmin
    cases hid
    refine ⟨_, rfl, fun i hi => ?address, ?high, ?low, ?flags, rfl⟩
    case address =>
      rw [← joinAddr_getElem? a0 a1 a2 a3 a4 a5 a6 a7 hi, Nat.add_comm]
      exact List.getElem?_append_left (Nat.succ_lt_succ hi)
    case high => rw [← hiByte_eq_ofNat, hiByte_joinHalf]; rfl
    case low => rw [← loByte_eq_ofNat, loByte_joinHalf]; rfl
    case flags => rintro _ ⟨⟩; exact ⟨rfl, rfl, rfl, rfl⟩

/-! ## The consumer's probe (R157, R163, R165) -/

theorem probe_atCommandResponse {buffer : List Byte} (h : buffer.head? = some idAtCommandResponse) :
    probe buffer = some .atCommandResponse := by
  obtain ⟨rest, rfl⟩ := List.head?_eq_some_iff.1 h
  rfl

theorem probe_zigbeeReceivePacket {buffer : List Byte} (h : buffer.head? = some idZigbeeReceivePacket) :
    probe buffer = some .zigbeeReceivePacket := by
  obtain ⟨rest, rfl⟩ := List.head?_eq_some_iff.1 h
  rfl

/-- No variant responds to another first byte, nor to an empty payload. -/
theorem probe_eq_none {buffer : List Byte} (hresponse : buffer.head? ≠ some idAtCommandResponse)
    (hpacket : buffer.head? ≠ some idZigbeeReceivePacket) : probe buffer = none := by
  cases buffer with
  | nil => rfl
  | cons id rest =>
    simp only [List.head?_cons, ne_eq, Option.some.injEq] at hresponse hpacket
    simp [probe, ResponseKind.respondsTo, hresponse, hpacket]

/-- A payload within the scratch buffer is probed; the variant that responds parses it, and without one it is ignored
(R163, R165). -/
theorem step_receive {s : State} {len : Half} {rest : List Action} (hlen : len.toNat ≤ s.rx.cap.toNat)
    (hin : s.input = .receive len :: rest) :
    step s = ((probe (s.rx.bytes len.toNat)).map fun kind =>
      exec (parseInstr kind (s.rx.bytes len.toNat)) (s.begin rest)).getD
        (.next ((s.begin rest).returned .ignored)) := by
  have htake : consumerTake len (s.begin rest) = .ok (s.rx.bytes len.toNat) := if_pos (BitVec.le_def.2 hlen)
  rw [step_cons hin]
  simp only [perform, consumerReceive, htake]
  cases probe (s.rx.bytes len.toNat) <;> rfl

/-- Settles O47: each clause is what the probe finds. -/
theorem consumerProbesBeforeParse : Obligations.ConsumerProbesBeforeParse := by
  intro s len rest hlen hin
  rw [step_receive hlen hin]
  refine ⟨fun hid => ?response, fun hid => ?packet, fun hresponse hpacket => ?ignored⟩
  case response => rw [probe_atCommandResponse hid]; rfl
  case packet => rw [probe_zigbeeReceivePacket hid]; rfl
  case ignored => rw [probe_eq_none hresponse hpacket]; rfl

end Sys2Proof.Machine
end

section
/-! Proof of family 60_exceptions: what a step does with several strobes at once (O10). -/

namespace Sys2Proof.Machine

/-! ## Operations called in the same step (R41, R188) -/

/-- A step by strobes runs what they select by the tags before the step. -/
theorem step_strobe {s : State} {p : Strobes} {rest : List Action} (hin : s.input = .strobe p :: rest) :
    step s = runSelectors (strobeSelectors p s) (s.begin rest) :=
  step_cons hin

/-- `reset` is the one operation selected, whatever the other strobes are. -/
theorem strobeSelectors_reset {p : Strobes} (hreset : p.reset = true) (s : State) :
    strobeSelectors p s = [.reset] :=
  if_pos hreset

/-- With a `serialize` strobe the phase and the `next` strobe select nothing. -/
theorem serializerSelectors_start {p : Strobes} {len : Half} (hstart : p.start = some len) (phase : TxPhase) :
    serializerSelectors p phase = [.serialize len] := by
  simp only [serializerSelectors, hstart]

/-- With a `next` strobe and no `serialize` the phase selects. -/
theorem serializerSelectors_next {p : Strobes} (hstart : p.start = none) (hnext : p.next = true) (phase : TxPhase) :
    serializerSelectors p phase = [nextSelector phase] := by
  simp only [serializerSelectors, hstart, hnext, if_true]

/-- `serialize` overrides `next`: the strobes select the same with it and without. -/
theorem strobeSelectors_start_next (reset : Bool) (push : Option Byte) (len : Half) (next : Bool) (s : State) :
    strobeSelectors ⟨reset, push, some len, next⟩ s = strobeSelectors ⟨reset, push, some len, false⟩ s := by
  simp only [strobeSelectors, serializerSelectors]

/-- A `push` and a serializer operation in one step: the operation runs from where the push has gone on to. Both are
selected by the tags before the step (R10). -/
theorem step_push_then {s t : State} {p : Strobes} {b : Byte} {i j : Instr} {sel : Selector} {rest : List Action}
    (hin : s.input = .strobe p :: rest) (hreset : p.reset = false) (hpush : p.push = some b)
    (hsel : serializerSelectors p s.tx.phase = [sel]) (hi : decode (pushSelector s.rx.state b) = .ok i)
    (hj : decode sel = .ok j) (hexec : exec i (s.begin rest) = .next t) : step s = exec j t := by
  have hsels : strobeSelectors p s = [pushSelector s.rx.state b, sel] := by
    simp [strobeSelectors, hreset, hpush, hsel]
  rw [step_strobe hin, hsels, runSelectors_cons [sel] hi hexec, runSelectors_one hj]

/-- Settles O10: each clause is what the strobes select, run in order. -/
theorem simultaneousStrobes : Obligations.SimultaneousStrobes := by
  refine ⟨fun s p rest hin hreset => ?reset, fun s push len rest => ?serializeNext,
    fun s t b len i rest hin hi hexec => ?pushSerialize, fun s t b i j rest hin hi hj hexec => ?pushNext⟩
  case reset => rw [step_strobe hin, strobeSelectors_reset hreset, runSelectors_one rfl]
  case serializeNext =>
    rw [step_strobe rfl, step_strobe rfl, strobeSelectors_start_next]
    rfl
  case pushSerialize => exact step_push_then hin rfl rfl (serializerSelectors_start rfl _) hi rfl hexec
  case pushNext => exact step_push_then hin rfl rfl (serializerSelectors_next rfl rfl _) hi hj hexec

end Sys2Proof.Machine
end

section
/-! Proofs of family 70_reset_and_hazards: what `reset` sets (O34), and the writes that a sequence in progress refuses
(O51). -/

namespace Sys2Proof.Machine

/-! ## Reset (R197, R210) -/

/-- Settles O34: `reset` is the two units' own resets and quiet results, and these are their registers written out. -/
theorem resetSetsEveryRegister : Obligations.ResetSetsEveryRegister := fun _ => rfl

/-! ## Writes into a sequence in progress (R215, U7) -/

/-- An owner's write that hits the sequence in progress is refused. -/
theorem ownerWrite_inUse {a : Half} {s : State} (v : Byte) (hc : a.toNat < s.tx.cap.toNat)
    (hs : s.tx.sends a.toNat = true) : ownerWrite a v s = .refused .payloadInUse := by
  rw [ownerWrite, if_pos (BitVec.lt_def.2 hc), if_pos hs]

/-- A sequence in progress with a payload byte has one at index 0, where every `build` starts. -/
theorem Tx.sends_zero {t : Tx} (hphase : t.phase ≠ .txIdle) (hlen : t.len ≠ 0) : t.sends 0 = true :=
  (Tx.sends_eq_true t 0).2 ⟨hphase, Nat.pos_of_ne_zero (BitVec.toNat_ne.1 hlen)⟩

/-- Settles O51: the owner's write hits its own index, and a `build` that fits hits index 0. -/
theorem writeIntoSequenceIsRefused : Obligations.WriteIntoSequenceIsRefused := by
  refine ⟨fun s a v rest hin hc hphase ha => ?ownerWrite, fun m s hfits hphase hlen => ?atCommand,
    fun m s hfits hphase hlen => ?transmitRequest⟩
  case ownerWrite =>
    rw [step_cons hin]
    exact ownerWrite_inUse (s := s.begin rest) v hc ((Tx.sends_eq_true _ _).2 ⟨hphase, ha⟩)
  case atCommand => exact State.build_inUse m.layout hfits (Tx.sends_zero hphase hlen)
  case transmitRequest => exact State.build_inUse m.layout hfits (Tx.sends_zero hphase hlen)

end Sys2Proof.Machine
end
